-- ==== Sys2Proof/Word.lean ====
section
/-! DEFINITION. The byte and the command word of the YSF frame payload engine. The two lengths the source fixes are
written as the numbers they are: 90 (`PAYLOAD_LEN`) and 10 (`CS_LEN`) (R5). -/

namespace Sys2Proof

/-- A byte: 8 bits, an unsigned value 0..255 (R7). -/
abbrev Byte := BitVec 8

/-- A command word: 16 bits, bit 0 least significant (R87). -/
abbrev Word := BitVec 16

end Sys2Proof
end

