-- ==== Sys2Proof/Config.lean ====
section
/-! DEFINITION. The implementation parameters of R5: the record `Params` that every operation of the engine takes as a
named argument, and the opaque constants the machine's own instance takes where the spec leaves the behaviour to a
parameter (the two collaborators, the mailbox policy, the trace enable). -/

namespace Sys2Proof

/-- `MAILBOX_POLICY`: what a store into an occupied `SOURCE` or `DEST` does (R5, R205, D14). -/
inductive MailboxPolicy where
  | overwrite
  | keepFirst
  deriving DecidableEq, Repr, Inhabited

/-- An interleave table for a channel of `m` bytes: `4 * m` entries, entry `i` the channel bit position of the first bit
of symbol pair `i` (R112). It carries its well-formedness (R113): the `8 * m` positions `T[i]`, `T[i] + 1` lie in the
channel and are pairwise distinct. Entries at `4 * m` and beyond are never read. -/
structure Table (m : Nat) where
  entry : Nat → Nat
  inRange : ∀ i < 4 * m, entry i + 1 < 8 * m
  distinct : ∀ i < 4 * m, ∀ j < 4 * m, ∀ b < 2, ∀ c < 2, entry i + b = entry j + c → i = j ∧ b = c

/-- The implementation parameters of R5. A claim may quantify over them; the machine's own instance is
`Machine.params`. -/
structure Params where
  /-- `SYNC_LEN` (R5, R51) -/
  syncLen : Nat
  /-- `FICH_LEN` (R5, R51) -/
  fichLen : Nat
  /-- `FRAME_LEN` (R5, R50) -/
  frameLen : Nat
  /-- the constraint R5 puts on `FRAME_LEN` -/
  frameFits : syncLen + fichLen + 90 ≤ frameLen
  /-- `ILV9`: 180 entries, for 45-byte channels (R112) -/
  ilv9 : Table 45
  /-- `ILV5`: 100 entries, for 25-byte channels (R112) -/
  ilv5 : Table 25
  /-- `WHITEN[0..20)` (R123) -/
  whitening : Vector Byte 20
  /-- `PAD` (R242) -/
  pad : Byte
  /-- `FI_HEADER` (R82) -/
  fiHeader : BitVec 2
  /-- `FI_COMMS` (R82); no rule tests it -/
  fiComms : BitVec 2
  /-- `FI_TERM` (R82) -/
  fiTerm : BitVec 2
  /-- `MAILBOX_POLICY` (R205) -/
  mailboxPolicy : MailboxPolicy
  /-- `TRACE_EN` (R136) -/
  traceEn : Bool
  /-- `ConvDecode(pairs, nBits)`: bit `j` of the decoded sequence, for `j < nBits` (R128) -/
  convDecodeBit : List (Bool × Bool) → Nat → Nat → Bool
  /-- `ConvEncode`: coded bit `k` for the given input bits, for `k` below twice their number (R129) -/
  convEncodeBit : List Bool → Nat → Bool
  /-- the two bytes `CrcAdd` stores after the given information bytes: `B[n]` and `B[n+1]` (R132 to R134) -/
  crc : List Byte → Byte × Byte

/-- FREE VALUE (R128, R130, D8; log 8): the convolutional decoder of the machine's own instance, an uninterpreted total
function. -/
opaque Config.convDecodeBit : List (Bool × Bool) → Nat → Nat → Bool

/-- FREE VALUE (R129, D8; log 8): the convolutional encoder of the machine's own instance. -/
opaque Config.convEncodeBit : List Bool → Nat → Bool

/-- FREE VALUE (R132 to R134, D9; log 9): the CRC collaborator of the machine's own instance. -/
opaque Config.crc : List Byte → Byte × Byte

/-- FREE VALUE (R205, D14; log 10): the mailbox policy of the machine's own instance. -/
opaque Config.mailboxPolicy : MailboxPolicy

/-- FREE VALUE (R136, D12; log 11): the trace enable of the machine's own instance. -/
opaque Config.traceEn : Bool

end Sys2Proof
end

