-- ==== Sys2Proof/Machine/Params.lean ====
section
/-! DEFINITION. What is computed from parameters, the default parameter values of R5 (R112, R123, R82, R242) and the machine's own parameter set. Every
default is the spec's, marked there as general knowledge (PRESUMED, log 3 to 7). -/

namespace Sys2Proof

/-- `PAYLOAD_OFF = SYNC_LEN + FICH_LEN` (R5, R51). -/
def Params.payloadOff (p : Params) : Nat := p.syncLen + p.fichLen

/-- `fi` says header or terminator (R83 row 1), with the codes of the parameter set `p`. -/
def Params.isHeaderOrTerm (p : Params) (fi : BitVec 2) : Bool := fi == p.fiHeader || fi == p.fiTerm

end Sys2Proof

namespace Sys2Proof.Machine

/-- Default `ILV9` (R112): entry `k` is `2*(k div 9) + 40*(k mod 9)`. -/
def defaultIlv9 : Table 45 where
  entry k := 2 * (k / 9) + 40 * (k % 9)
  inRange := by intro i hi; omega
  distinct := by intro i hi j hj b hb c hc h; constructor <;> omega

/-- Default `ILV5` (R112): entry `k` is `2*(k div 5) + 40*(k mod 5)`. -/
def defaultIlv5 : Table 25 where
  entry k := 2 * (k / 5) + 40 * (k % 5)
  inRange := by intro i hi; omega
  distinct := by intro i hi j hj b hb c hc h; constructor <;> omega

/-- Default `WHITEN` (R123). -/
def defaultWhitening : Vector Byte 20 :=
  #v[0x93, 0xD7, 0x51, 0x21, 0x9C, 0x2F, 0x6C, 0xD0, 0xEF, 0x0F,
     0xF8, 0x3D, 0xF1, 0x73, 0x20, 0x94, 0xED, 0x1E, 0x7C, 0xD8]

/-- The parameters of the machine `exec` and `step` are (R5): the spec's default for every number, and the opaque
constants of `Config` for the collaborators, the mailbox policy and the trace enable. -/
def params : Params where
  syncLen := 5
  fichLen := 25
  frameLen := 120
  frameFits := by decide
  ilv9 := defaultIlv9
  ilv5 := defaultIlv5
  whitening := defaultWhitening
  pad := 0x20
  fiHeader := 0
  fiComms := 1
  fiTerm := 2
  mailboxPolicy := Config.mailboxPolicy
  traceEn := Config.traceEn
  convDecodeBit := Config.convDecodeBit
  convEncodeBit := Config.convEncodeBit
  crc := Config.crc

end Sys2Proof.Machine
end

