-- ==== Sys2Proof/Syntax.lean ====
section
/-! DEFINITION. The commands of the engine, one constructor per row of the opcode table (R80, R83, R90). -/

namespace Sys2Proof

/-- One command of the engine with its operand fields (R80, R81, R86, R89). The five `DECODE` forms are the five rows of
the mode decoder (R83); `fn` and `ft` take no part in the selection. -/
inductive Instr where
  /-- `DECODE.HT`: header or terminator frame; `dt` is carried and ignored (R170) -/
  | decodeHT (fi : BitVec 2) (fn ft : BitVec 3) (dt : BitVec 2)
  /-- `DECODE.VD1`: V/D Mode 1, `dt` = 0 (R190) -/
  | decodeVD1 (fi : BitVec 2) (fn ft : BitVec 3)
  /-- `DECODE.DFR`: Data Full-Rate, `dt` = 1 (R171) -/
  | decodeDFR (fi : BitVec 2) (fn ft : BitVec 3)
  /-- `DECODE.VD2`: V/D Mode 2, `dt` = 2 (R200) -/
  | decodeVD2 (fi : BitVec 2) (fn ft : BitVec 3)
  /-- `DECODE.VFR`: Voice Full-Rate, any other `dt` (R155) -/
  | decodeVFR (fi : BitVec 2) (fn ft : BitVec 3)
  /-- `ENCODE` (R157) -/
  | encode
  /-- `SET_UPLINK len` (R240) -/
  | setUplink (len : BitVec 4)
  /-- `SET_DOWNLINK len` (R241) -/
  | setDownlink (len : BitVec 4)
  /-- `GET_SOURCE` (R243) -/
  | getSource
  /-- `GET_DEST` (R244) -/
  | getDest
  deriving DecidableEq, Repr

end Sys2Proof
end

