-- ==== Sys2Proof/WellFormed.lean ====
section
/-! DEFINITION. Which terms of `Instr` are commands: the `fi` operand of a `DECODE` form must be one that the mode
decoder sends to that form (R83, R90). Every other operand value is legal (R92). -/

namespace Sys2Proof

/-- The command is one the mode decoder of an engine with the parameters `p` can select (R5, R83): `DECODE.HT` has a
header or terminator `fi`, the four other `DECODE` forms have neither. -/
def Instr.wellFormedWith (p : Params) : Instr → Bool
  | .decodeHT fi _ _ _ => p.isHeaderOrTerm fi
  | .decodeVD1 fi _ _ => !p.isHeaderOrTerm fi
  | .decodeDFR fi _ _ => !p.isHeaderOrTerm fi
  | .decodeVD2 fi _ _ => !p.isHeaderOrTerm fi
  | .decodeVFR fi _ _ => !p.isHeaderOrTerm fi
  | .encode => true
  | .setUplink _ => true
  | .setDownlink _ => true
  | .getSource => true
  | .getDest => true

/-- The command is one the machine's own mode decoder can select (R83, R90). -/
def Instr.wellFormed (i : Instr) : Bool := i.wellFormedWith Machine.params

end Sys2Proof
end

