-- ==== Sys2Proof/Decode.lean ====
section
/-! DEFINITION. Command word to command and back (R83, R87 to R91, R94). `decode` is total: a reserved word is rejected
by name. -/

namespace Sys2Proof

/-- Why a word is reserved (R91). -/
inductive DecodeError where
  /-- `op` = `cmd[15:12]` is 0x0 or 0x7 to 0xF -/
  | reservedOp (op : BitVec 4)
  /-- a must-be-zero bit of the format is 1 -/
  | reservedBits (w : Word)
  deriving DecidableEq, Repr

/-- The mode decoder (R83, R152): the first matching row selects the routine. -/
def selectDecode (p : Params) (fi : BitVec 2) (fn ft : BitVec 3) (dt : BitVec 2) : Instr :=
  if p.isHeaderOrTerm fi then .decodeHT fi fn ft dt
  else if dt = 0 then .decodeVD1 fi fn ft
  else if dt = 2 then .decodeVD2 fi fn ft
  else if dt = 1 then .decodeDFR fi fn ft
  else .decodeVFR fi fn ft

/-- `op = cmd[15:12]` (R88). -/
def opField (w : Word) : BitVec 4 := w.extractLsb' 12 4

/-- `fi = cmd[11:10]` (R89). -/
def fiField (w : Word) : BitVec 2 := w.extractLsb' 10 2

/-- `fn = cmd[9:7]` (R89). -/
def fnField (w : Word) : BitVec 3 := w.extractLsb' 7 3

/-- `ft = cmd[6:4]` (R89). -/
def ftField (w : Word) : BitVec 3 := w.extractLsb' 4 3

/-- `dt = cmd[3:2]` (R89). -/
def dtField (w : Word) : BitVec 2 := w.extractLsb' 2 2

/-- `len = cmd[3:0]` (R89). -/
def lenField (w : Word) : BitVec 4 := w.extractLsb' 0 4

/-- Format `D` (R87): bits 1:0 must be 00. The `fi` codes are those of the parameter set `p` (R5, R82). -/
def decodeFormatD (p : Params) (w : Word) : Except DecodeError Instr :=
  if w.extractLsb' 0 2 = 0 then .ok (selectDecode p (fiField w) (fnField w) (ftField w) (dtField w))
  else .error (.reservedBits w)

/-- Format `L` (R87): bits 11:4 must be 0000 0000. -/
def decodeFormatL (mk : BitVec 4 → Instr) (w : Word) : Except DecodeError Instr :=
  if w.extractLsb' 4 8 = 0 then .ok (mk (lenField w)) else .error (.reservedBits w)

/-- Format `Z` (R87): bits 11:0 must be 0000 0000 0000. -/
def decodeFormatZ (i : Instr) (w : Word) : Except DecodeError Instr :=
  if w.extractLsb' 0 12 = 0 then .ok i else .error (.reservedBits w)

/-- The decoder of command words of an engine with the parameters `p` (R5, R88, R91). -/
def decodeWith (p : Params) (w : Word) : Except DecodeError Instr :=
  match (opField w).toNat with
  | 1 => decodeFormatD p w
  | 2 => decodeFormatZ .encode w
  | 3 => decodeFormatL .setUplink w
  | 4 => decodeFormatL .setDownlink w
  | 5 => decodeFormatZ .getSource w
  | 6 => decodeFormatZ .getDest w
  | _ => .error (.reservedOp (opField w))

/-- The decoder of command words of the machine (R88, R90, R91). -/
def decode (w : Word) : Except DecodeError Instr := decodeWith Machine.params w

/-- A word of format `D`: `0x1000 + fi*1024 + fn*128 + ft*16 + dt*4` (R87, R94). -/
def wordD (fi : BitVec 2) (fn ft : BitVec 3) (dt : BitVec 2) : Word := 1#4 ++ fi ++ fn ++ ft ++ dt ++ 0#2

/-- The encoder: the word of a command (R87, R88, R94). -/
def encode : Instr → Word
  | .decodeHT fi fn ft dt => wordD fi fn ft dt
  | .decodeVD1 fi fn ft => wordD fi fn ft 0
  | .decodeDFR fi fn ft => wordD fi fn ft 1
  | .decodeVD2 fi fn ft => wordD fi fn ft 2
  | .decodeVFR fi fn ft => wordD fi fn ft 3
  | .encode => 2#4 ++ 0#12
  | .setUplink len => 3#4 ++ 0#8 ++ len
  | .setDownlink len => 4#4 ++ 0#8 ++ len
  | .getSource => 5#4 ++ 0#12
  | .getDest => 6#4 ++ 0#12

/-- One row of the opcode table (R90): a word `w` selects the row when `w and mask = match`. -/
structure OpcodeRow where
  mnemonic : String
  pattern : Word
  mask : Word
  deriving DecidableEq, Repr

/-- The ten rows of R90. -/
def opcodeRows : List OpcodeRow :=
  [⟨"DECODE.HT", 0x1000, 0xF403⟩, ⟨"DECODE.VD1", 0x1400, 0xF40F⟩, ⟨"DECODE.DFR", 0x1404, 0xF40F⟩,
   ⟨"DECODE.VD2", 0x1408, 0xF40F⟩, ⟨"DECODE.VFR", 0x140C, 0xF40F⟩, ⟨"ENCODE", 0x2000, 0xFFFF⟩,
   ⟨"SET_UPLINK", 0x3000, 0xFFF0⟩, ⟨"SET_DOWNLINK", 0x4000, 0xFFF0⟩, ⟨"GET_SOURCE", 0x5000, 0xFFFF⟩,
   ⟨"GET_DEST", 0x6000, 0xFFFF⟩]

/-- `w` selects the row (R90). -/
def OpcodeRow.selects (r : OpcodeRow) (w : Word) : Bool := w &&& r.mask == r.pattern

/-- The mnemonic of a command in the opcode table (R90). -/
def Instr.mnemonic : Instr → String
  | .decodeHT _ _ _ _ => "DECODE.HT"
  | .decodeVD1 _ _ _ => "DECODE.VD1"
  | .decodeDFR _ _ _ => "DECODE.DFR"
  | .decodeVD2 _ _ _ => "DECODE.VD2"
  | .decodeVFR _ _ _ => "DECODE.VFR"
  | .encode => "ENCODE"
  | .setUplink _ => "SET_UPLINK"
  | .setDownlink _ => "SET_DOWNLINK"
  | .getSource => "GET_SOURCE"
  | .getDest => "GET_DEST"

/-- The command the decoder reads from a table word of `nbits` bits (one 16-bit word, R93; the bits above `nbits` are
zero). -/
def decodeTableWord (nbits w : Nat) : Option Instr :=
  if nbits ≤ 16 then
    match decode (BitVec.ofNat 16 (w % 2 ^ nbits)) with
    | .ok i => some i
    | .error _ => none
  else none

end Sys2Proof
end

