-- ==== Sys2Proof/Machine/State.lean ====
section
/-! DEFINITION. The state of the engine as plain data (R20 to R35, R50), the host events it has yet to perform, the
reasons a step stops, and the state right after reset (R35). -/

namespace Sys2Proof.Machine

/-- A callsign: exactly 10 bytes (R20). -/
structure Callsign where
  bytes : List Byte
  size_eq : bytes.length = 10
  deriving DecidableEq, Repr

/-- The four callsign slots (R20). -/
inductive Slot where
  | uplink
  | downlink
  | source
  | dest
  deriving DecidableEq, Repr

/-- The four byte-addressed spaces (R50). -/
inductive Space where
  | frame
  | payload
  | csin
  | csout
  deriving DecidableEq, Repr

/-- The contents of one space: (address, byte) cells. The canonical form is `Memory.wf`. -/
abbrev Memory := List Host.Cell

/-- The tags of trace events (R136). -/
inductive TraceTag where
  | ht1
  | ht2
  | dfr1
  | dfr2
  | vd1
  | vd2 (fn : BitVec 3)
  deriving DecidableEq, Repr

/-- One event of the trace output: a tag and the dewhitened plaintext (R32, R136). -/
structure TraceEvent where
  tag : TraceTag
  bytes : List Byte
  deriving DecidableEq, Repr

/-- What the host does next (R63, R292 to R294; log 1). The host has no other way to act on the engine (R293): no event
writes `PAYLOAD`, `CSOUT` or a slot. -/
inductive HostEvent where
  /-- present a command word (R87) -/
  | command (w : Word)
  /-- place a whole frame in `FRAME`, of any length; the empty list is an absent frame (R52, R292 step 3; log 14) -/
  | placeFrame (bytes : List Byte)
  /-- write bytes of `FRAME` in place (R50) -/
  | writeFrame (addr : Nat) (bytes : List Byte)
  /-- write bytes of `CSIN` (R50, R53) -/
  | writeCsin (addr : Nat) (bytes : List Byte)
  /-- reset the instance between commands (R290) -/
  | reset
  /-- present a command, touch a buffer or reset WHILE a command executes (R262 `ConcurrentCommand`, R290; log 17) -/
  | concurrent
  deriving DecidableEq, Repr

/-- The state of one engine instance (R20 to R35, R50), and the host events not yet performed. -/
structure State where
  /-- slot `UPLINK` (R20, R21) -/
  uplink : Option Callsign
  /-- slot `DOWNLINK` (R20, R21) -/
  downlink : Option Callsign
  /-- mailbox `SOURCE` (R20, R22) -/
  source : Option Callsign
  /-- mailbox `DEST` (R20, R22) -/
  dest : Option Callsign
  /-- the internal buffer `PAYLOAD` (R24); a byte nothing has written has no value (R35) -/
  payload : Memory
  /-- the ghost flag `PAYLOAD_VALID` (R25) -/
  payloadValid : Bool
  /-- the flag `RESULT` (R26) -/
  result : Bool
  /-- the space `FRAME` (R50, R51) -/
  frame : Memory
  /-- the length in bytes of the frame the host has passed, 0 when absent (R52, R262; log 14) -/
  frameLen : Nat
  /-- the space `CSIN` (R50, R53) -/
  csin : Memory
  /-- the space `CSOUT` (R50, R53, R54) -/
  csout : Memory
  /-- the output stream `TRACE`, oldest event first (R32) -/
  trace : List TraceEvent
  /-- the MODEL's own field: what the host does next, in order (log 1) -/
  pending : List HostEvent
  deriving DecidableEq, Repr

/-- Why the machine stops with a fault. The engine itself has none (R260); both are the model's own (log 20). -/
inductive Fault where
  /-- An access to an address outside its space: raised by a host write event past the end of `FRAME` or `CSIN`
  (R50); no command reaches it (R61). Safe: the run stops. -/
  | outsideSpace (sp : Space) (addr : Nat)
  /-- A read of a `PAYLOAD` byte that nothing has written (R35): raised by no command in a state the invariant of
  `Safety` holds of. Safe: the run stops. -/
  | noValue (sp : Space) (addr : Nat)
  deriving DecidableEq, Repr

/-- Why a command is outside the engine's contract and has no meaning (R262, D20). None is a hardware trap. -/
inductive Refusal where
  /-- Raised by an arm of `exec` whose instruction has no meaning yet. Safe. -/
  | notModelled (mnemonic : String)
  /-- `FrameTooShort`: raised by a `DECODE` or an `ENCODE` with a frame shorter than `PAYLOAD_OFF + 90` or absent
  (R52, R262). Safe. -/
  | frameTooShort
  /-- `EncodeBeforeDecode`: raised by `ENCODE` while `PAYLOAD_VALID` is 0 (R157, R158, R262). Safe. -/
  | encodeBeforeDecode
  /-- `ConcurrentCommand`: raised by the host event `concurrent` (R262, R297). Safe. -/
  | concurrentCommand
  /-- `ReservedEncoding`: raised by the step when the presented word is reserved (R91, R262). Safe. -/
  | reservedEncoding (w : Word)
  /-- `IllFormedTable`: raised when a parameter set is built from a table that fails R113 (R262, U12). Safe. -/
  | illFormedTable
  deriving DecidableEq, Repr

/-- The state right after reset of an engine with the parameters `p` (R5, R35). Nothing is listed in any space: `PAYLOAD` holds no value, the host's buffers read
as the value `unlisted` names (log 12); the frame has the length `FRAME_LEN` (log 14); the host has nothing to do
(log 1). -/
def State.resetWith (p : Params) : State where
  uplink := none
  downlink := none
  source := none
  dest := none
  payload := []
  payloadValid := false
  result := false
  frame := []
  frameLen := p.frameLen
  csin := []
  csout := []
  trace := []
  pending := []

/-- The state right after reset of the machine (R35). -/
def State.reset : State := State.resetWith params

end Sys2Proof.Machine
end

