-- ==== Sys2Proof/Machine/Memory.lean ====
section
/-! DEFINITION. One byte space as a canonical list of cells: lookup, contiguous write, canonical form. -/

namespace Sys2Proof.Machine

/-- What a byte that nothing has written reads as: no value in `PAYLOAD` (R24, R35, D18; log 13), 0x00 in the host's
buffers (DESIGN CHOICE, unsafe; log 12). -/
def unlisted : Space → Option Byte
  | .payload => none
  | .frame | .csin | .csout => some 0

/-- The byte listed at an address. -/
def Memory.find : Memory → Nat → Option Byte
  | [], _ => none
  | c :: m, a => if c.1 = a then some c.2 else Memory.find m a

/-- The byte read at an address: the listed byte, else the given unlisted value. -/
def Memory.read (unl : Option Byte) (m : Memory) (a : Nat) : Option Byte :=
  match Memory.find m a with
  | some b => some b
  | none => unl

/-- The cells of a run of bytes that starts at an address. -/
def Memory.cells : Nat → List Byte → Memory
  | _, [] => []
  | a, b :: bs => (a, b) :: Memory.cells (a + 1) bs

/-- Write a run of bytes in increasing index order (R55): the cells below and above stay, the run's own cells are listed
where they differ from the unlisted value. -/
def Memory.write (unl : Option Byte) (m : Memory) (a : Nat) (bs : List Byte) : Memory :=
  m.filter (fun c => c.1 < a)
    ++ (Memory.cells a bs).filter (fun c => some c.2 ≠ unl)
    ++ m.filter (fun c => a + bs.length ≤ c.1)

/-- The canonical form of a space of `size` bytes: addresses strictly rising and inside the space, no cell equal to the
unlisted value. -/
abbrev Memory.wf (unl : Option Byte) (size : Nat) (m : Memory) : Prop :=
  m.Pairwise (fun c d => c.1 < d.1) ∧ ∀ c ∈ m, c.1 < size ∧ some c.2 ≠ unl

end Sys2Proof.Machine
end

