-- ==== Sys2Proof/Machine/Ops.lean ====
section
/-! DEFINITION. The named operations over the slots and the byte spaces (R10): slot read and write, `MemRead`,
`MemWrite`. The engine raises no exception and takes no interrupt (R260, R264, R266, R267), so there is no exception entry
and no return here. -/

namespace Sys2Proof.Machine

/-- `x[s]`: read of a callsign slot (R10). -/
def State.slot (s : State) : Slot → Option Callsign
  | .uplink => s.uplink
  | .downlink => s.downlink
  | .source => s.source
  | .dest => s.dest

/-- `x[s] <- v`: write of a callsign slot (R10). -/
def State.setSlot (s : State) (sl : Slot) (v : Option Callsign) : State :=
  match sl with
  | .uplink => { s with uplink := v }
  | .downlink => { s with downlink := v }
  | .source => { s with source := v }
  | .dest => { s with dest := v }

/-- The callsign whose byte `j` is `f j`, for `j < 10`. -/
def Callsign.ofFn (f : Nat → Byte) : Callsign := ⟨(List.range 10).map f, by simp⟩

/-- The contents of a space. -/
def State.mem (s : State) : Space → Memory
  | .frame => s.frame
  | .payload => s.payload
  | .csin => s.csin
  | .csout => s.csout

/-- Replace the contents of a space. -/
def State.setMem (s : State) (sp : Space) (m : Memory) : State :=
  match sp with
  | .frame => { s with frame := m }
  | .payload => { s with payload := m }
  | .csin => { s with csin := m }
  | .csout => { s with csout := m }

/-- The size in bytes of a space (R50). -/
def State.size (s : State) : Space → Nat
  | .frame => s.frameLen
  | .payload => 90
  | .csin => 10
  | .csout => 10

/-- The byte at an address of a space, when the address exists and holds a value. -/
def State.byte (s : State) (sp : Space) (a : Nat) : Option Byte :=
  if a < s.size sp then Memory.read (unlisted sp) (s.mem sp) a else none

/-- Read one byte, or say why there is none. -/
def readByte (sp : Space) (a : Nat) (s : State) : Except Fault Byte :=
  match s.byte sp a with
  | some b => .ok b
  | none => .error (if a < s.size sp then .noValue sp a else .outsideSpace sp a)

/-- `MemRead(space, addr, n)`: the `n` bytes at `[addr..addr+n)` in increasing index order (R10, R55). -/
def memRead (sp : Space) : Nat → Nat → State → Except Fault (List Byte)
  | _, 0, _ => .ok []
  | a, n + 1, s =>
    match readByte sp a s with
    | .error f => .error f
    | .ok b =>
      match memRead sp (a + 1) n s with
      | .error f => .error f
      | .ok bs => .ok (b :: bs)

/-- `MemWrite(space, addr, n, v)` (R10, R55). The ranges the engine writes are statically inside their space (R61); a host
write is checked by `hostWrite`. -/
def memWrite (sp : Space) (a : Nat) (v : List Byte) (s : State) : State :=
  s.setMem sp (Memory.write (unlisted sp) (s.mem sp) a v)

/-- A sequence of runs of `w` bytes, one at each start, concatenated. -/
def readRuns (sp : Space) (w : Nat) : List Nat → State → Except Fault (List Byte)
  | [], _ => .ok []
  | a :: as, s =>
    match memRead sp a w s with
    | .error f => .error f
    | .ok bs =>
      match readRuns sp w as s with
      | .error f => .error f
      | .ok cs => .ok (bs ++ cs)

end Sys2Proof.Machine
end

