-- ==== Sys2Proof/Machine/Flags.lean ====
section
/-! DEFINITION. The engine's only flag, `RESULT` (R26). There are no condition codes. -/

namespace Sys2Proof.Machine

/-- `RESULT <- b` (R10, R26). -/
def setResult (b : Bool) (s : State) : State := { s with result := b }

end Sys2Proof.Machine
end

