-- ==== Sys2Proof/Machine/Operands.lean ====
section
/-! DEFINITION. The operand forms of the commands (R86): the frame in `FRAME`, the callsign string in `CSIN`, the
destination `CSOUT`. -/

namespace Sys2Proof.Machine

/-- The frame is at least `PAYLOAD_OFF + 90` bytes long: the precondition of `DECODE` and `ENCODE` (R52, R262). -/
def frameLongEnough (p : Params) (s : State) : Bool := p.payloadOff + 90 ≤ s.frameLen

/-- The 90 bytes of the payload region of `FRAME` (R51, R58). -/
def readFramePayload (p : Params) (s : State) : Except Fault (List Byte) := memRead .frame p.payloadOff 90 s

/-- Write the payload region of `FRAME` (R51, R58). -/
def writeFramePayload (p : Params) (v : List Byte) (s : State) : State := memWrite .frame p.payloadOff v s

/-- The number of bytes a `len` operand takes from `CSIN`: `min(len, 10)` (R85, R242). -/
def stringLen (len : BitVec 4) : Nat := min len.toNat 10

/-- The string operand `CSIN[0..min(len,10))` (R53, R85). -/
def readString (len : BitVec 4) (s : State) : Except Fault (List Byte) := memRead .csin 0 (stringLen len) s

/-- `pad10` (R242): the callsign made from the first `min(len, 10)` bytes of `B`, padded on the right with `PAD`. -/
def pad10 (p : Params) (B : List Byte) (len : BitVec 4) : Callsign :=
  Callsign.ofFn fun j => if j < stringLen len then B.getD j p.pad else p.pad

/-- Write the destination operand `CSOUT[0..10)` (R53, R243). -/
def writeCsout (c : Callsign) (s : State) : State := memWrite .csout 0 c.bytes s

end Sys2Proof.Machine
end

