-- ==== Sys2Proof/Machine/CallsignCache.lean ====
section
/-! DEFINITION. The callsign cache commands (R240 to R247). -/

namespace Sys2Proof.Machine

/-- The body of `SET_UPLINK` and `SET_DOWNLINK`: the slot becomes `pad10` of the string in `CSIN` (R240, R241, D15). -/
def setCallsign (p : Params) (sl : Slot) (len : BitVec 4) (s : State) : Host.Outcome State Fault Refusal :=
  match readString len s with
  | .error f => .fault f
  | .ok B => .next (s.setSlot sl (some (pad10 p B len)))

/-- The body of `GET_SOURCE` and `GET_DEST`: take the mailbox (R243, R244). -/
def takeMailbox (sl : Slot) (s : State) : State :=
  match s.slot sl with
  | some c => setResult true ((writeCsout c s).setSlot sl none)
  | none => setResult false s

/-- `SET_UPLINK len` (R240). -/
def execSetUplink (len : BitVec 4) (s : State) : Host.Outcome State Fault Refusal := setCallsign params .uplink len s

/-- `SET_DOWNLINK len` (R241). -/
def execSetDownlink (len : BitVec 4) (s : State) : Host.Outcome State Fault Refusal := setCallsign params .downlink len s

/-- `GET_SOURCE` (R243). -/
def execGetSource (s : State) : Host.Outcome State Fault Refusal := .next (takeMailbox .source s)

/-- `GET_DEST` (R244). -/
def execGetDest (s : State) : Host.Outcome State Fault Refusal := .next (takeMailbox .dest s)

end Sys2Proof.Machine
end

