-- ==== Sys2Proof/Machine/Datapath.lean ====
section
/-! DEFINITION. The datapath primitives (R110 to R137): bit access, the permutation engine, extraction and insertion, the
whitener, the collaborators' contracts, the trace output, the shared 20-byte block decoder. A scratch buffer is a list of
bytes, local to one command (R27); its size is fixed by the operation that makes it (R6). -/

namespace Sys2Proof.Machine

/-! ## Bit access -/

/-- `getBit(B, i)`: bit `7 - (i mod 8)` of byte `B[i div 8]` (R8, R110). -/
def getBit (B : List Byte) (i : Nat) : Bool := (B.getD (i / 8) 0).getLsbD (7 - i % 8)

/-- The mask `1 << (7 - (i mod 8))` of R111. -/
def bitMask (i : Nat) : Byte := 1#8 <<< (7 - i % 8)

/-- `setBit(B, i, v)` (R111). -/
def setBit (B : List Byte) (i : Nat) (v : Bool) : List Byte :=
  B.set (i / 8) (if v then B.getD (i / 8) 0 ||| bitMask i else B.getD (i / 8) 0 &&& (0xFF#8 ^^^ bitMask i))

/-- The byte whose bit at index `j`, most significant first, is `f j` (R8). -/
def byteOfBits (f : Nat → Bool) : Byte := BitVec.ofFnLE fun k : Fin 8 => f (7 - k.val)

/-- A bit sequence packed into `n` bytes: bit `j` at bit index `j` (R55 item 4, R128). -/
def packBits (n : Nat) (f : Nat → Bool) : List Byte :=
  (List.range n).map fun k => byteOfBits fun j => f (8 * k + j)

/-! ## The permutation engine -/

/-- `Deinterleave(dch, T)`: the symbol pairs of a channel buffer in stream order (R117). -/
def deinterleave {m : Nat} (T : Table m) (dch : List Byte) : List (Bool × Bool) :=
  (List.range (4 * m)).map fun i => (getBit dch (T.entry i), getBit dch (T.entry i + 1))

/-- One round of the loop of R118: the two bits of pair `i` go to bit positions `T[i]` and `T[i] + 1`. -/
def putPair {m : Nat} (T : Table m) (cb : List Bool) (dch : List Byte) (i : Nat) : List Byte :=
  setBit (setBit dch (T.entry i) (cb.getD (2 * i) false)) (T.entry i + 1) (cb.getD (2 * i + 1) false)

/-- `Interleave(cb, T)`: coded bits in stream order to a channel buffer, started from zeros (R118, D29). -/
def interleave {m : Nat} (T : Table m) (cb : List Bool) : List Byte :=
  (List.range (4 * m)).foldl (putPair T cb) (List.replicate m 0)

/-- The pairs `(cb[0], cb[1]), (cb[2], cb[3]), …` of a coded bit sequence (R120, R129). -/
def pairsOf (cb : List Bool) : List (Bool × Bool) :=
  (List.range (cb.length / 2)).map fun i => (cb.getD (2 * i) false, cb.getD (2 * i + 1) false)

/-- `flatten` of R120: `s0`, `s1` of each pair in order. -/
def flattenPairs (ps : List (Bool × Bool)) : List Bool := ps.flatMap fun q => [q.1, q.2]

/-! ## Extraction and insertion -/

/-- The starts of the five stride-18 groups at an offset: `off`, `18 + off`, … (R114 to R116, D10). -/
def groupStarts (off : Nat) : List Nat := [off, 18 + off, 36 + off, 54 + off, 72 + off]

/-- `Extract2x45()`: the two half-channels (R114). -/
def extract2x45 (s : State) : Except Fault (List Byte × List Byte) :=
  match readRuns .payload 9 (groupStarts 0) s with
  | .error f => .error f
  | .ok dch1 =>
    match readRuns .payload 9 (groupStarts 9) s with
    | .error f => .error f
    | .ok dch2 => .ok (dch1, dch2)

/-- `Extract45()`: the coded channel of V/D Mode 1 (R115). -/
def extract45 (s : State) : Except Fault (List Byte) := readRuns .payload 9 (groupStarts 0) s

/-- `Extract25()`: the coded channel of V/D Mode 2 (R116). -/
def extract25 (s : State) : Except Fault (List Byte) := readRuns .payload 5 (groupStarts 0) s

/-- `Insert25(dch)`: the inverse of `Extract25` (R119). -/
def insert25 (dch : List Byte) (s : State) : State :=
  [0, 1, 2, 3, 4].foldl (fun s g => memWrite .payload (18 * g) ((dch.drop (5 * g)).take 5) s) s

/-! ## The whitener -/

/-- Byte `j` of the whitening mask (R123). -/
def maskByte (p : Params) (j : Nat) : Byte := p.whitening.toList.getD j 0

/-- `Whiten(B, n)` (R124). -/
def whiten (p : Params) (B : List Byte) (n : Nat) : List Byte :=
  (List.range n).map fun j => B.getD j 0 ^^^ maskByte p j

/-! ## The collaborators -/

/-- `ConvDecode(pairs, nBits)`, packed most significant bit first (R128). -/
def convDecode (p : Params) (pairs : List (Bool × Bool)) (nBits : Nat) : List Byte :=
  packBits (nBits / 8) (p.convDecodeBit pairs nBits)

/-- The input bits `[0..nBits)` of a buffer (R129). -/
def inputBits (B : List Byte) (nBits : Nat) : List Bool := (List.range nBits).map (getBit B)

/-- `ConvEncode(inBytes, nBits)`: `2 * nBits` coded bits in stream order (R129). -/
def convEncode (p : Params) (B : List Byte) (nBits : Nat) : List Bool :=
  (List.range (2 * nBits)).map (p.convEncodeBit (inputBits B nBits))

/-- `CrcCheck(B, n)`: the CRC of `B[0..n)` equals the stored bytes `B[n]`, `B[n+1]` (R132; log 9). -/
def crcCheck (p : Params) (B : List Byte) (n : Nat) : Bool :=
  decide ((B.getD n 0, B.getD (n + 1) 0) = p.crc (B.take n))

/-- `CrcAdd(B, n)`: `B[n]`, `B[n+1]` become the CRC of `B[0..n)` (R133; log 9). -/
def crcAdd (p : Params) (B : List Byte) (n : Nat) : List Byte :=
  (B.set n (p.crc (B.take n)).1).set (n + 1) (p.crc (B.take n)).2

/-! ## The trace output and the shared block decoder -/

/-- `trace(tag, bytes)`: append one event when `TRACE_EN`, else nothing (R136). -/
def emitTrace (p : Params) (tag : TraceTag) (bytes : List Byte) (s : State) : State :=
  { s with trace := s.trace ++ if p.traceEn then [⟨tag, bytes⟩] else [] }

/-- The 22 decoded bytes of a 45-byte channel (R137, R174). -/
def decodedBlock20 (p : Params) (dch : List Byte) : List Byte := convDecode p (deinterleave p.ilv9 dch) 176

/-- `DecodeBlock20(dch, tag)` (R137): on CRC success the plaintext is traced, on failure nothing happens. -/
def decodeBlock20 (p : Params) (dch : List Byte) (tag : TraceTag) (s : State) : State :=
  let out := decodedBlock20 p dch
  if crcCheck p out 20 then emitTrace p tag (whiten p out 20) s else s

end Sys2Proof.Machine
end

