-- ==== Sys2Proof/Machine/DecodeCommon.lean ====
section
/-! DEFINITION. The part common to every `DECODE` form (R150, R151) and the copy-out of `ENCODE` (R157). -/

namespace Sys2Proof.Machine

/-- `CopyIn()` (R151): the 90 payload bytes of `FRAME` to `PAYLOAD`, unconditionally. -/
def copyIn (p : Params) (s : State) : Except Fault State :=
  match readFramePayload p s with
  | .error f => .error f
  | .ok v => .ok { memWrite .payload 0 v s with payloadValid := true }

/-- A mode routine: run after the copy-in, it returns the boolean result and the state (R152). -/
abbrev Routine := State → Except Fault (Bool × State)

/-- `DECODE` with the routine the dispatch selected (R150). A frame that is too short is refused before any state changes
(R262, R265). -/
def decodeCommand (p : Params) (routine : Routine) (s : State) : Host.Outcome State Fault Refusal :=
  if frameLongEnough p s then
    match copyIn p s with
    | .error f => .fault f
    | .ok s1 =>
      match routine s1 with
      | .error f => .fault f
      | .ok q => .next (setResult q.1 q.2)
  else .refused .frameTooShort

/-- `ENCODE` (R157, R158). Refused before any state changes (R262, R265) while nothing was decoded, or when the frame is
too short; the order of the two tests is log 15. -/
def encodeCommand (p : Params) (s : State) : Host.Outcome State Fault Refusal :=
  if s.payloadValid then
    if frameLongEnough p s then
      match memRead .payload 0 90 s with
      | .error f => .fault f
      | .ok v => .next (writeFramePayload p v s)
    else .refused .frameTooShort
  else .refused .encodeBeforeDecode

end Sys2Proof.Machine
end

