-- ==== Sys2Proof/Machine/HeaderTrailer.lean ====
section
/-! DEFINITION. Header/Trailer decode and Data Full-Rate decode (R170 to R176). -/

namespace Sys2Proof.Machine

/-- The body shared by the two structurally identical routines: DCH1 then DCH2, each decoded on its own (R170 to R172,
D11). -/
def decodeTwoHalves (p : Params) (tag1 tag2 : TraceTag) : Routine := fun s =>
  match extract2x45 s with
  | .error f => .error f
  | .ok d => .ok (true, decodeBlock20 p d.2 tag2 (decodeBlock20 p d.1 tag1 s))

/-- `DecodeHT()` (R170). -/
def decodeHT (p : Params) : Routine := decodeTwoHalves p .ht1 .ht2

/-- `DecodeDFR()` (R171). -/
def decodeDFR (p : Params) : Routine := decodeTwoHalves p .dfr1 .dfr2

/-- `DECODE.HT` (R150, R170). No operand field is read after the dispatch (R170, D13). -/
def execDecodeHT (_fi : BitVec 2) (_fn _ft : BitVec 3) (_dt : BitVec 2) (s : State) : Host.Outcome State Fault Refusal :=
  decodeCommand params (decodeHT params) s

/-- `DECODE.DFR` (R150, R171). No operand field is read after the dispatch (R171, D13). -/
def execDecodeDFR (_fi : BitVec 2) (_fn _ft : BitVec 3) (s : State) : Host.Outcome State Fault Refusal :=
  decodeCommand params (decodeDFR params) s

end Sys2Proof.Machine
end

