-- ==== Sys2Proof/Machine/VdMode1.lean ====
section
/-! DEFINITION. V/D Mode 1 decode (R190 to R193). -/

namespace Sys2Proof.Machine

/-- `DecodeVD1()` (R190). -/
def decodeVD1 (p : Params) : Routine := fun s =>
  match extract45 s with
  | .error f => .error f
  | .ok dch => .ok (true, decodeBlock20 p dch .vd1 s)

/-- `DECODE.VD1` (R150, R190). No operand field is read after the dispatch (R190, D13). -/
def execDecodeVD1 (_fi : BitVec 2) (_fn _ft : BitVec 3) (s : State) : Host.Outcome State Fault Refusal :=
  decodeCommand params (decodeVD1 params) s

end Sys2Proof.Machine
end

