-- ==== Sys2Proof/Machine/VdMode2.lean ====
section
/-! DEFINITION. V/D Mode 2: decode, callsign store, repair, re-encode (R200 to R222). -/

namespace Sys2Proof.Machine

/-- `Store` (R205): a store into an occupied mailbox follows `MAILBOX_POLICY`. -/
def mailboxStore (policy : MailboxPolicy) (old : Option Callsign) (c : Callsign) : Option Callsign :=
  match old, policy with
  | none, _ => some c
  | some _, .overwrite => some c
  | some d, .keepFirst => some d

/-- The 10 plaintext bytes as a callsign, exactly as dewhitened (R205, D26). -/
def callsignOf (P : List Byte) : Callsign := Callsign.ofFn fun j => P.getD j 0

/-- The mailbox that a CRC-validated block with this `fn` is stored in (R84, R205, R206, R218). -/
def storeSlot (fn : BitVec 3) : Option Slot :=
  if fn = 0 then some .dest else if fn = 1 then some .source else none

/-- The `fn` arm of a CRC-validated block with plaintext `P` (R204 to R206). -/
def storePlaintext (p : Params) (fn : BitVec 3) (P : List Byte) (s : State) : State :=
  match storeSlot fn with
  | some sl => s.setSlot sl (mailboxStore p.mailboxPolicy (s.slot sl) (callsignOf P))
  | none => s

/-- The slot whose callsign repairs a block with this `fn` (R84, R207, R208). -/
def repairSlot (fn : BitVec 3) : Option Slot :=
  if fn = 2 then some .downlink else if fn = 3 then some .uplink else none

/-- The cached callsign that is substituted into a block with this `fn`, if there is one (R207, R208). -/
def substitute (fn : BitVec 3) (s : State) : Option Callsign :=
  match repairSlot fn with
  | some sl => s.slot sl
  | none => none

/-- The 12 decoded bytes of a 25-byte channel and the padding byte (R200, R201). -/
def decodedBlock10 (p : Params) (dch : List Byte) : List Byte := convDecode p (deinterleave p.ilv5 dch) 96 ++ [0]

/-- The 13-byte buffer that is re-encoded: `W`, its CRC, a zero byte (R210). -/
def encoderBuffer (p : Params) (W : List Byte) : List Byte := (crcAdd p (W ++ [0, 0, 0]) 10).set 12 0

/-- The 25 coded bytes of a 10-byte whitened block (R210 to R212). -/
def reencode (p : Params) (W : List Byte) : List Byte := interleave p.ilv5 (convEncode p (encoderBuffer p W) 100)

/-- The whitened form to re-encode after the repair step, when a valid 10-byte result exists (R203, R207 to R209): the
whitened substitute, else the decoded bytes when the CRC check succeeded. -/
def validBlock (p : Params) (sub : Option Callsign) (ok : Bool) (W : List Byte) : Option (List Byte) :=
  match sub with
  | some c => some (whiten p c.bytes 10)
  | none => if ok then some W else none

/-- `DecodeVD2(fn)` from the extracted channel on (R200): CRC check, store and trace, repair, then fail or re-encode, in
the order of R219. -/
def decodeVD2Channel (p : Params) (fn : BitVec 3) (dch : List Byte) (s : State) : Bool × State :=
  let out := decodedBlock10 p dch
  let ok := crcCheck p out 10
  let W := out.take 10
  let s1 := if ok then storePlaintext p fn (whiten p W 10) (emitTrace p (.vd2 fn) (whiten p W 10) s) else s
  match validBlock p (substitute fn s1) ok W with
  | some W' => (true, insert25 (reencode p W') s1)
  | none => (false, s1)

/-- `DecodeVD2(fn)` (R200). -/
def decodeVD2 (p : Params) (fn : BitVec 3) : Routine := fun s =>
  match extract25 s with
  | .error f => .error f
  | .ok dch => .ok (decodeVD2Channel p fn dch s)

/-- `DECODE.VD2` (R150, R200). `ft` is read by no rule (D13). -/
def execDecodeVD2 (_fi : BitVec 2) (fn _ft : BitVec 3) (s : State) : Host.Outcome State Fault Refusal :=
  decodeCommand params (decodeVD2 params fn) s

end Sys2Proof.Machine
end

