-- ==== Sys2Proof/Machine/VoiceFr.lean ====
section
/-! DEFINITION. Voice Full-Rate pass-through (R155) and `ENCODE` (R157). -/

namespace Sys2Proof.Machine

/-- Voice Full-Rate: after the copy-in, nothing; a no-op success (R155). -/
def decodeVFR : Routine := fun s => .ok (true, s)

/-- `DECODE.VFR` (R150, R155). -/
def execDecodeVFR (_fi : BitVec 2) (_fn _ft : BitVec 3) (s : State) : Host.Outcome State Fault Refusal :=
  decodeCommand params decodeVFR s

/-- `ENCODE` (R157). -/
def execEncode (s : State) : Host.Outcome State Fault Refusal := encodeCommand params s

end Sys2Proof.Machine
end

