-- ==== Sys2Proof/Machine/Dispatch.lean ====
section
/-! DEFINITION. One arm per command, each one call of its meaning. -/

namespace Sys2Proof.Machine

-- one arm per constructor of Instr, in the order of the opcode table's families
def exec (i : Instr) (s : State) : Host.Outcome State Fault Refusal :=
  match i with
  | .decodeHT fi fn ft dt => Sys2Proof.Machine.execDecodeHT fi fn ft dt s
  | .decodeVD1 fi fn ft => Sys2Proof.Machine.execDecodeVD1 fi fn ft s
  | .decodeDFR fi fn ft => Sys2Proof.Machine.execDecodeDFR fi fn ft s
  | .decodeVD2 fi fn ft => Sys2Proof.Machine.execDecodeVD2 fi fn ft s
  | .decodeVFR fi fn ft => Sys2Proof.Machine.execDecodeVFR fi fn ft s
  | .encode => Sys2Proof.Machine.execEncode s
  | .setUplink len => Sys2Proof.Machine.execSetUplink len s
  | .setDownlink len => Sys2Proof.Machine.execSetDownlink len s
  | .getSource => Sys2Proof.Machine.execGetSource s
  | .getDest => Sys2Proof.Machine.execGetDest s

end Sys2Proof.Machine
end

