-- ==== Sys2Proof/Machine/HostEvents.lean ====
section
/-! DEFINITION. What a host event other than a command does (R50, R52, R54, R290 to R294), taking the next event,
and what one step does with it, for any decoder and any meaning of the commands. -/

namespace Sys2Proof.Machine

/-- The next host event and the state with it taken, if the host has something to do. -/
def fetch (s : State) : Option (HostEvent × State) :=
  match s.pending with
  | [] => none
  | ev :: rest => some (ev, { s with pending := rest })

/-- The host places a frame of any length; its bytes are the whole of `FRAME` (R52, R292 step 3; log 14). -/
def hostPlaceFrame (bytes : List Byte) (s : State) : State :=
  { s with frame := Memory.write (unlisted .frame) [] 0 bytes, frameLen := bytes.length }

/-- The host writes bytes of `FRAME` or `CSIN` in place (R50); a run that leaves the space faults (log 20). -/
def hostWrite (sp : Space) (addr : Nat) (bytes : List Byte) (s : State) : Host.Outcome State Fault Refusal :=
  if addr + bytes.length ≤ s.size sp then .next (memWrite sp addr bytes s)
  else .fault (.outsideSpace sp (max addr (s.size sp)))

/-- Reset between commands (R290): the engine's own state becomes that of R35; the host's buffers, `CSOUT` and what the
host does next are not touched (log 16). -/
def resetEngine (s : State) : State :=
  { State.reset with
    frame := s.frame, frameLen := s.frameLen, csin := s.csin, csout := s.csout, pending := s.pending }

/-- The state with a command word presented as the host's next event. -/
def presentWord (w : Word) (s : State) : State := { s with pending := .command w :: s.pending }

/-- Perform the next host event with the word decoder `dec` and the command meanings `run` (R28, R63, R294): the engine is
idle when there is none (R275); a command word is decoded and run to completion; a reserved word is refused and nothing
changes (R91, R262). -/
def performNext (dec : Word → Except DecodeError Instr) (run : Instr → State → Host.Outcome State Fault Refusal)
    (s : State) : Host.Outcome State Fault Refusal :=
  match fetch s with
  | none => .next s
  | some (.command w, s') =>
    match dec w with
    | .ok i => run i s'
    | .error _ => .refused (.reservedEncoding w)
  | some (.placeFrame bytes, s') => .next (hostPlaceFrame bytes s')
  | some (.writeFrame addr bytes, s') => hostWrite .frame addr bytes s'
  | some (.writeCsin addr bytes, s') => hostWrite .csin addr bytes s'
  | some (.reset, s') => .next (resetEngine s')
  | some (.concurrent, _) => .refused .concurrentCommand

end Sys2Proof.Machine
end

