-- ==== Sys2Proof/Machine/Step.lean ====
section
/-! DEFINITION. One step: the engine is idle when the host has nothing to do, else it performs the next host event; a
command word is decoded and run to completion (R28, R63, R275, R294). -/

namespace Sys2Proof.Machine

/-- One step of the machine. -/
def step (s : State) : Host.Outcome State Fault Refusal := performNext decode exec s

/-- The state in which the next step runs the command of a table word: the word stands first among the host events
(log 1). -/
def State.withFetchWord (s : State) (nbits w : Nat) : State := presentWord (BitVec.ofNat 16 (w % 2 ^ nbits)) s

end Sys2Proof.Machine
end

