-- ==== Sys2Proof/Machine/Collaborators.lean ====
section
/-! DEFINITION. The two concrete collaborator sets of R131 and R135, `STUB` and `REF-A`, as parameter sets with every open
switch at its default (R5). The machine itself takes the collaborators as opaque constants (log 8, log 9); these sets
exist so that the engine's own datapath can be evaluated on concrete data (log 22). -/

namespace Sys2Proof.Machine

/-- The two stored bytes of a 16-bit CRC, high byte first (R135). -/
def crcBytes (c : BitVec 16) : Byte × Byte := (c.extractLsb' 8 8, c.extractLsb' 0 8)

/-! ## STUB -/

/-- `STUB` `ConvDecode`: `s0` of pair `j` (R131). -/
def stubDecodeBit (pairs : List (Bool × Bool)) (_nBits j : Nat) : Bool := (pairs.getD j (false, false)).1

/-- `STUB` `ConvEncode`: each input bit twice (R131). -/
def stubEncodeBit (bits : List Bool) (k : Nat) : Bool := bits.getD (k / 2) false

/-- `STUB` CRC: `(0xFFFF - sum of the bytes) mod 65536` (R135). -/
def stubCrc (B : List Byte) : Byte × Byte :=
  crcBytes (0xFFFF#16 - BitVec.ofNat 16 ((B.map BitVec.toNat).sum))

/-- Default parameters with the `STUB` collaborators (R5, R131, R135). -/
def stubParams : Params :=
  { params with
    mailboxPolicy := .overwrite, traceEn := true
    convDecodeBit := stubDecodeBit, convEncodeBit := stubEncodeBit, crc := stubCrc }

/-! ## REF-A -/

/-- Input bit `j` steps before step `k`: `d1` to `d4` of R131, 0 before the first. -/
def earlierBit (bits : List Bool) (k j : Nat) : Bool := if j ≤ k then bits.getD (k - j) false else false

/-- `REF-A` `ConvEncode`: `g1 = d xor d3 xor d4`, then `g2 = d xor d1 xor d2 xor d4` (R131). -/
def refAEncodeBit (bits : List Bool) (n : Nat) : Bool :=
  let d := earlierBit bits (n / 2)
  if n % 2 = 0 then d 0 ^^ d 3 ^^ d 4 else d 0 ^^ d 1 ^^ d 2 ^^ d 4

/-- The output pair of the `REF-A` code in state `st` (bit 0 is `d1`, bit 3 is `d4`) for input `d` (R131). -/
def refAOutput (st : Nat) (d : Bool) : Bool × Bool :=
  (d ^^ st.testBit 2 ^^ st.testBit 3, d ^^ st.testBit 0 ^^ st.testBit 1 ^^ st.testBit 3)

/-- A survivor of the trellis: its Hamming distance and its decided input bits, last first; `none` when no path reaches
the state. -/
abbrev Survivor := Option (Nat × List Bool)

/-- The number of bits in which two pairs differ. -/
def pairDistance (a b : Bool × Bool) : Nat := (a.1 ^^ b.1).toNat + (a.2 ^^ b.2).toNat

/-- Extend a survivor in state `st` by input `d` against the received pair. -/
def extendSurvivor (sv : Survivor) (st : Nat) (d : Bool) (r : Bool × Bool) : Survivor :=
  sv.map fun q => (q.1 + pairDistance (refAOutput st d) r, d :: q.2)

/-- The better of two survivors, ties to the first. -/
def betterSurvivor (a b : Survivor) : Survivor :=
  match a, b with
  | some x, some y => if x.1 ≤ y.1 then a else b
  | some _, none => a
  | none, _ => b

/-- One trellis step: the state after input `d` in state `s` is `2*s mod 16 + d`; ties go to the lower-numbered
predecessor (log 22). -/
def trellisStep (svs : List Survivor) (r : Bool × Bool) : List Survivor :=
  (List.range 16).map fun t =>
    betterSurvivor (extendSurvivor (svs.getD (t / 2) none) (t / 2) (t % 2 == 1) r)
      (extendSurvivor (svs.getD (t / 2 + 8) none) (t / 2 + 8) (t % 2 == 1) r)

/-- The survivors before the first pair: only state 0 is reached (R131). -/
def trellisStart : List Survivor := some (0, []) :: List.replicate 15 none

/-- `REF-A` `ConvDecode`: a hard-decision maximum-likelihood decision that starts and ends in state 0 (R131). -/
def refADecodeBits (pairs : List (Bool × Bool)) : List Bool :=
  match (pairs.foldl trellisStep trellisStart).getD 0 none with
  | some q => q.2.reverse
  | none => []

/-- Bit `j` of the `REF-A` decision. -/
def refADecodeBit (pairs : List (Bool × Bool)) (_nBits j : Nat) : Bool := (refADecodeBits pairs).getD j false

/-- One bit of the `REF-A` CRC: polynomial 0x1021, most significant bit first (R135). -/
def refACrcBit (c : BitVec 16) (d : Bool) : BitVec 16 :=
  if c.getLsbD 15 ^^ d then (c <<< 1) ^^^ 0x1021#16 else c <<< 1

/-- One byte of the `REF-A` CRC (R135). -/
def refACrcByte (c : BitVec 16) (b : Byte) : BitVec 16 :=
  (List.range 8).foldl (fun c j => refACrcBit c (b.getLsbD (7 - j))) c

/-- `REF-A` CRC: initial value 0x0000, result inverted, high byte first (R135). -/
def refACrc (B : List Byte) : Byte × Byte := crcBytes (~~~(B.foldl refACrcByte 0))

/-- Default parameters with the `REF-A` collaborators (R5, R131, R135). -/
def refAParams : Params :=
  { params with
    mailboxPolicy := .overwrite, traceEn := true
    convDecodeBit := refADecodeBit, convEncodeBit := refAEncodeBit, crc := refACrc }

end Sys2Proof.Machine
end

