-- ==== Sys2Proof/Machine/Instantiate.lean ====
section
/-! DEFINITION. Building a parameter set from printed tables: a table that is not well-formed (R113) is refused at
configuration, `IllFormedTable` (R262, U12; log 23). -/

namespace Sys2Proof.Machine

/-- The pairs of entries `i` and `j` use no common position (R113). -/
def entriesApart (T : Nat → Nat) (i j : Nat) : Bool :=
  i == j || (T i != T j && T i != T j + 1 && T i + 1 != T j)

/-- Well-formedness of printed entries (R113): as many as the channel has symbol pairs, all positions in the channel and
pairwise distinct. -/
def entriesWellFormed (m : Nat) (entries : List Nat) : Bool :=
  entries.length == 4 * m && (List.range (4 * m)).all (fun i => entries.getD i 0 + 1 < 8 * m) &&
    (List.range (4 * m)).all fun i => (List.range (4 * m)).all (entriesApart (fun k => entries.getD k 0) i)

/-- Entries that pass the check have every position in the channel (R113). -/
theorem entriesWellFormed_inRange {m : Nat} {entries : List Nat} (h : entriesWellFormed m entries = true) :
    ∀ i < 4 * m, entries.getD i 0 + 1 < 8 * m := by
  simp only [entriesWellFormed, Bool.and_eq_true, List.all_eq_true, List.mem_range, decide_eq_true_eq] at h
  exact h.1.2

/-- Entries that pass the check have pairwise distinct positions (R113). -/
theorem entriesWellFormed_distinct {m : Nat} {entries : List Nat} (h : entriesWellFormed m entries = true) :
    ∀ i < 4 * m, ∀ j < 4 * m, ∀ b < 2, ∀ c < 2,
      entries.getD i 0 + b = entries.getD j 0 + c → i = j ∧ b = c := by
  simp only [entriesWellFormed, Bool.and_eq_true, List.all_eq_true, List.mem_range] at h
  intro i hi j hj b hb c hc hbc
  have hap := h.2 i hi j hj
  simp only [entriesApart, Bool.or_eq_true, beq_iff_eq, Bool.and_eq_true, bne_iff_ne] at hap
  rcases hap with rfl | hne <;> omega

/-- The table of printed entries, or the refusal `IllFormedTable` (R113, R262). -/
def tableOfEntries (m : Nat) (entries : List Nat) : Except Refusal (Table m) :=
  if h : entriesWellFormed m entries = true then
    .ok ⟨fun i => entries.getD i 0, entriesWellFormed_inRange h, entriesWellFormed_distinct h⟩
  else .error .illFormedTable

/-- A parameter set with the given printed tables (R5, R112, D6). -/
def withTables (p : Params) (ilv9 ilv5 : List Nat) : Except Refusal Params :=
  match tableOfEntries 45 ilv9 with
  | .error r => .error r
  | .ok t9 =>
    match tableOfEntries 25 ilv5 with
    | .error r => .error r
    | .ok t5 => .ok { p with ilv9 := t9, ilv5 := t5 }

end Sys2Proof.Machine
end

