-- ==== Sys2Proof/Machine/Parametric.lean ====
section
/-! DEFINITION. The commands and the step under an arbitrary parameter set (R5: "each is a named argument of the model so
that a claim can quantify over it"). `exec` and `step` are these functions at `params`. -/

namespace Sys2Proof.Machine

/-- `Dispatch(fi, fn, dt)` as the source lists its arms (R152): the routine the mode decoder runs after the copy-in. -/
def dispatchRoutine (p : Params) (fi : BitVec 2) (fn : BitVec 3) (dt : BitVec 2) : Routine :=
  if fi = p.fiHeader ∨ fi = p.fiTerm then decodeHT p
  else if dt = 0 then decodeVD1 p
  else if dt = 2 then decodeVD2 p fn
  else if dt = 1 then decodeDFR p
  else decodeVFR

/-- One command of an engine built with the parameters `p` (R5, R30, R291). -/
def execWith (p : Params) (i : Instr) (s : State) : Host.Outcome State Fault Refusal :=
  match i with
  | .decodeHT _ _ _ _ => decodeCommand p (decodeHT p) s
  | .decodeVD1 _ _ _ => decodeCommand p (decodeVD1 p) s
  | .decodeDFR _ _ _ => decodeCommand p (decodeDFR p) s
  | .decodeVD2 _ fn _ => decodeCommand p (decodeVD2 p fn) s
  | .decodeVFR _ _ _ => decodeCommand p decodeVFR s
  | .encode => encodeCommand p s
  | .setUplink len => setCallsign p .uplink len s
  | .setDownlink len => setCallsign p .downlink len s
  | .getSource => .next (takeMailbox .source s)
  | .getDest => .next (takeMailbox .dest s)

/-- One step of an engine built with the parameters `p` (R5, R28, R63): the word is decoded with its `fi` codes. -/
def stepWith (p : Params) (s : State) : Host.Outcome State Fault Refusal := performNext (decodeWith p) (execWith p) s

end Sys2Proof.Machine
end

