-- ==== Sys2Proof/Safety.lean ====
section
/-! DEFINITION. The terms claims about the engine use: the invariant of its states, what the host may observe, the
properties of the collaborators a claim may assume, and the spec's own names for the data of one command. -/

namespace Sys2Proof.Machine

/-! ## The invariant -/

/-- The number of plaintext bytes of a trace event with this tag (R136). -/
def TraceTag.blockLen : TraceTag → Nat
  | .vd2 _ => 10
  | _ => 20

/-- What every reachable state satisfies: each space is in canonical form (R50); `PAYLOAD` holds a value in every byte
once something was decoded and in none before (R25, R35, R159); every trace event has the size of its block (R136). -/
structure State.Inv (s : State) : Prop where
  memoryWf : ∀ sp, Memory.wf (unlisted sp) (s.size sp) (s.mem sp)
  payloadFilled : s.payloadValid = true → ∀ k < 90, (s.byte .payload k).isSome
  payloadEmpty : s.payloadValid = false → s.payload = []
  traceSizes : ∀ e ∈ s.trace, e.bytes.length = e.tag.blockLen

/-! ## What the host may read between commands -/

/-- `RESULT`, `CSOUT`, `FRAME` and `TRACE`: all an observer may read (R54, R294). -/
structure Observation where
  result : Bool
  csout : List (Option Byte)
  frame : List (Option Byte)
  trace : List TraceEvent
  deriving DecidableEq, Repr

/-- What the host reads in a state (R54, R294; log 19). -/
def observe (s : State) : Observation where
  result := s.result
  csout := (List.range 10).map (s.byte .csout)
  frame := (List.range s.frameLen).map (s.byte .frame)
  trace := s.trace

/-! ## Properties of the collaborators (R130) -/

/-- `ConvRoundTrip` (R130): decoding the coded form of a buffer whose tail bits `[n..n+4)` are zero gives back its bits
`[0..n)`, for n = 176 and n = 96. -/
def ConvRoundTrip (p : Params) : Prop :=
  ∀ n, n = 176 ∨ n = 96 → ∀ B : List Byte, n + 4 ≤ 8 * B.length → (∀ k < 4, getBit B (n + k) = false) →
    convDecode p (pairsOf (convEncode p B (n + 4))) n = packBits (n / 8) (getBit B)

/-! ## The data of one command -/

/-- The 90 bytes of the payload region of `FRAME` (R51). Every one of them exists when the frame is long enough. -/
def window (p : Params) (s : State) : List Byte :=
  (List.range 90).map fun k => (s.byte .frame (p.payloadOff + k)).getD 0

/-- Five groups of `w` bytes at stride 18 from an offset, concatenated: the channel buffers of R114 to R116 by their
closed form. -/
def channel (w off : Nat) (v : List Byte) : List Byte :=
  (List.range (5 * w)).map fun k => v.getD (18 * (k / w) + off + k % w) 0

/-- The event, if any, that the decoding of a 45-byte channel appends to `TRACE` (R136, R137). -/
def blockTrace (p : Params) (tag : TraceTag) (dch : List Byte) : List TraceEvent :=
  if crcCheck p (decodedBlock20 p dch) 20 && p.traceEn then [⟨tag, whiten p (decodedBlock20 p dch) 20⟩] else []

/-- The 45-byte channel that carries a 20-byte plaintext: whitened, CRC appended, a zero byte for the tail, coded,
interleaved (R130, R176). -/
def codedBlock20 (p : Params) (P : List Byte) : List Byte :=
  interleave p.ilv9 (convEncode p (crcAdd p (whiten p P 20 ++ [0, 0]) 20 ++ [0]) 180)

/-- The decoded buffer `out` of a V/D Mode 2 frame (R200). -/
def vd2Out (p : Params) (s : State) : List Byte := decodedBlock10 p (channel 5 0 (window p s))

/-- The CRC outcome of a V/D Mode 2 frame (R202). -/
def vd2Crc (p : Params) (s : State) : Bool := crcCheck p (vd2Out p s) 10

/-- The decoded information bytes `D` of a V/D Mode 2 frame, in whitened form (R217). -/
def vd2Info (p : Params) (s : State) : List Byte := (vd2Out p s).take 10

/-- Address `k` of `PAYLOAD` lies in one of the five groups that V/D Mode 2 rewrites (R60, R119). -/
def inGroup (k : Nat) : Prop := k < 90 ∧ k % 18 < 5

/-- `PAYLOAD` of `t` is the payload region of the frame in `s`: the condition `LOADED` of R159. -/
def loaded (p : Params) (s t : State) : Prop := ∀ k < 90, t.byte .payload k = s.byte .frame (p.payloadOff + k)

/-- The five groups of `PAYLOAD` hold the 25 bytes of a channel buffer (R119). -/
def groupsHold (t : State) (d : List Byte) : Prop :=
  ∀ k, inGroup k → t.byte .payload k = d[5 * (k / 18) + k % 18]?

/-- Two states are the same but for `PAYLOAD`, `PAYLOAD_VALID`, `RESULT` and `TRACE`: the frame of a `DECODE` that
stores no callsign (R58). -/
def sameButDecode (s t : State) : Prop :=
  t = { s with payload := t.payload, payloadValid := t.payloadValid, result := t.result, trace := t.trace }

/-- All that a `DECODE` without repair and without store leaves: the frame's payload in `PAYLOAD`, `RESULT` 1, some
events on `TRACE`, everything else as before (R58, R151, R153). -/
def observedDecode (p : Params) (s t : State) (events : List TraceEvent) : Prop :=
  sameButDecode s t ∧ t.result = true ∧ t.payloadValid = true ∧ loaded p s t ∧ t.trace = s.trace ++ events

/-- The callsign that a CRC-validated V/D Mode 2 frame carries (R204, R205). -/
def vd2Callsign (p : Params) (s : State) : Callsign := callsignOf (whiten p (vd2Info p s) 10)

/-- The complete decision table of V/D Mode 2 (R217), and all that it leaves alone: `t` is what a V/D Mode 2 frame in `s`
with this `fn` leads to. -/
def vd2Table (p : Params) (fn : BitVec 3) (s t : State) : Prop :=
  t = { s with source := t.source, dest := t.dest, payload := t.payload, payloadValid := true, result := t.result,
               trace := t.trace } ∧
  t.trace = s.trace ++ (if vd2Crc p s && p.traceEn then [⟨.vd2 fn, whiten p (vd2Info p s) 10⟩] else []) ∧
  (t.dest = if fn = 0 ∧ vd2Crc p s = true
    then mailboxStore p.mailboxPolicy s.dest (vd2Callsign p s) else s.dest) ∧
  (t.source = if fn = 1 ∧ vd2Crc p s = true
    then mailboxStore p.mailboxPolicy s.source (vd2Callsign p s) else s.source) ∧
  (∀ k < 90, ¬ inGroup k → t.byte .payload k = s.byte .frame (p.payloadOff + k)) ∧
  (∀ c, (fn = 2 ∧ s.downlink = some c) ∨ (fn = 3 ∧ s.uplink = some c) →
    t.result = true ∧ groupsHold t (reencode p (whiten p c.bytes 10))) ∧
  ((fn = 2 → s.downlink = none) → (fn = 3 → s.uplink = none) →
    (vd2Crc p s = true → t.result = true ∧ groupsHold t (reencode p (vd2Info p s))) ∧
    (vd2Crc p s = false → t.result = false ∧ loaded p s t))

/-- The ten bytes of `CSIN`. -/
def csinBytes (s : State) : List Byte := (List.range 10).map fun j => (s.byte .csin j).getD 0

/-- The complete transition table of the slots (R23): the value of a slot after a command that completes. -/
def slotAfter (p : Params) (i : Instr) (s : State) (sl : Slot) : Option Callsign :=
  match i, sl with
  | .setUplink len, .uplink => some (pad10 p (csinBytes s) len)
  | .setDownlink len, .downlink => some (pad10 p (csinBytes s) len)
  | .decodeVD2 _ fn _, .dest =>
    if fn = 0 ∧ vd2Crc p s = true then mailboxStore p.mailboxPolicy s.dest (vd2Callsign p s) else s.dest
  | .decodeVD2 _ fn _, .source =>
    if fn = 1 ∧ vd2Crc p s = true then mailboxStore p.mailboxPolicy s.source (vd2Callsign p s) else s.source
  | .getSource, .source => none
  | .getDest, .dest => none
  | _, sl => s.slot sl

/-- The value of `RESULT` after a command that completes (R26, R153, R243, R244). -/
def resultAfter (p : Params) (i : Instr) (s : State) : Bool :=
  match i with
  | .decodeVD2 _ fn _ => vd2Crc p s || (substitute fn s).isSome
  | .decodeHT _ _ _ _ | .decodeVD1 _ _ _ | .decodeDFR _ _ _ | .decodeVFR _ _ _ => true
  | .getSource => s.source.isSome
  | .getDest => s.dest.isSome
  | .encode | .setUplink _ | .setDownlink _ => s.result

end Sys2Proof.Machine

/-- The command is one of the five forms of `DECODE` (R80, R83). -/
def Sys2Proof.Instr.isDecode : Sys2Proof.Instr → Bool
  | .decodeHT _ _ _ _ | .decodeVD1 _ _ _ | .decodeDFR _ _ _ | .decodeVD2 _ _ _ | .decodeVFR _ _ _ => true
  | .encode | .setUplink _ | .setDownlink _ | .getSource | .getDest => false
end

