-- ==== Sys2Proof/Certificates/Slice0/Obligations.lean ====
section
/-! DEFINITION. The statements about the engine that are put to the provers. -/

open Sys2Proof Sys2Proof.Machine

/-! ## Reset, step, host events -/

/-- R35: what reset leaves. That an unspecified byte of `PAYLOAD` has no value is the model's form of 'unspecified'
(log 13). -/
def Obligations.ResetLeavesTheSpecifiedState : Prop :=
  State.reset.uplink = none ∧ State.reset.downlink = none ∧ State.reset.source = none ∧ State.reset.dest = none ∧
    (∀ a, State.reset.byte .payload a = none) ∧ State.reset.payloadValid = false ∧ State.reset.result = false ∧
    State.reset.trace = []

/-- The invariant holds right after reset. -/
def Obligations.ResetSatisfiesTheInvariant : Prop := State.reset.Inv

/-- Every step keeps the invariant, from every state that has it, whatever the host does: canonical memories, a payload
buffer that is whole once anything was decoded and empty before, trace events of the right size. -/
def Obligations.EveryStepKeepsTheInvariant : Prop := ∀ s t : State, s.Inv → step s = .next t → t.Inv

/-- R260: no command of any engine faults, from any state that satisfies the invariant. -/
def Obligations.NoCommandFaults : Prop := ∀ (p : Params) (i : Instr) (s : State), s.Inv → ∀ f, execWith p i s ≠ .fault f

/-- R262: the refusals of a command are exactly the two contract conditions on the state. Which of the two names an
`ENCODE` gets when both hold is the model's choice (log 15). -/
def Obligations.RefusalsAreExactlyTheContract : Prop :=
  ∀ (i : Instr) (s : State) (r : Refusal),
    exec i s = .refused r ↔
      (r = .encodeBeforeDecode ∧ i = .encode ∧ s.payloadValid = false) ∨
      (r = .frameTooShort ∧ s.frameLen < params.payloadOff + 90 ∧
        (i.isDecode = true ∨ (i = .encode ∧ s.payloadValid = true)))

/-- A step runs the decoded command: when the host's next event is a word that decodes to `i`, the step is `exec i` with
that event taken. -/
def Obligations.StepRunsTheDecodedCommand : Prop :=
  ∀ (s : State) (w : Word) (rest : List HostEvent) (i : Instr),
    s.pending = .command w :: rest → decode w = .ok i → step s = exec i { s with pending := rest }

/-- Presenting the encoding of a well-formed command runs exactly that command, and nothing else changes. -/
def Obligations.PresentedEncodingRunsTheCommand : Prop :=
  ∀ (s : State) (i : Instr), i.wellFormed = true → step (s.withFetchWord 16 (encode i).toNat) = exec i s

/-- R275: an engine with nothing to do keeps its state (log 2). -/
def Obligations.IdleEngineKeepsItsState : Prop := ∀ s : State, s.pending = [] → step s = .next s

/-- The host's own events (R50, R52, R290, R262): placing a frame, writing `FRAME` or `CSIN` in place, leaving the space,
resetting between commands, acting while a command executes. That a placed frame may have any length and replaces the
whole of `FRAME` is the model's choice (log 14); so are what a reset leaves of the host's buffers (log 16), the fault
(log 20) and the form of the last event (log 17). -/
def Obligations.HostEventsActOnTheHostsBuffers : Prop :=
  ∀ (s : State) (rest : List HostEvent),
    (∀ bytes, s.pending = .placeFrame bytes :: rest →
      ∃ t, step s = .next t ∧ t = { s with pending := rest, frame := t.frame, frameLen := bytes.length } ∧
        ∀ a, t.byte .frame a = bytes[a]?) ∧
    (∀ addr bytes, s.pending = .writeFrame addr bytes :: rest → addr + bytes.length ≤ s.frameLen →
      ∃ t, step s = .next t ∧ t = { s with pending := rest, frame := t.frame } ∧
        (∀ k < bytes.length, t.byte .frame (addr + k) = bytes[k]?) ∧
        ∀ a, a < addr ∨ addr + bytes.length ≤ a → t.byte .frame a = s.byte .frame a) ∧
    (∀ addr bytes, s.pending = .writeCsin addr bytes :: rest → addr + bytes.length ≤ 10 →
      ∃ t, step s = .next t ∧ t = { s with pending := rest, csin := t.csin } ∧
        (∀ k < bytes.length, t.byte .csin (addr + k) = bytes[k]?) ∧
        ∀ a, a < addr ∨ addr + bytes.length ≤ a → t.byte .csin a = s.byte .csin a) ∧
    (∀ addr bytes, s.pending = .writeFrame addr bytes :: rest → s.frameLen < addr + bytes.length →
      ∃ a, step s = .fault (.outsideSpace .frame a)) ∧
    (∀ addr bytes, s.pending = .writeCsin addr bytes :: rest → 10 < addr + bytes.length →
      ∃ a, step s = .fault (.outsideSpace .csin a)) ∧
    (s.pending = .reset :: rest →
      ∃ t, step s = .next t ∧ (∀ sl, t.slot sl = none) ∧ (∀ a, t.byte .payload a = none) ∧ t.payloadValid = false ∧
        t.result = false ∧ t.trace = [] ∧ t.frame = s.frame ∧ t.frameLen = s.frameLen ∧ t.csin = s.csin ∧
        t.csout = s.csout ∧ t.pending = rest) ∧
    (s.pending = .concurrent :: rest → step s = .refused .concurrentCommand)

/-! ## Encoding -/

/-- R91: which words are reserved, and that a reserved word is refused. -/
def Obligations.ReservedWordsAreRefused : Prop :=
  ∀ w : Word,
    ((∃ e, decode w = .error e) ↔
      (opField w = 0 ∨ 7 ≤ (opField w).toNat ∨ (opField w = 1 ∧ w.extractLsb' 0 2 ≠ 0) ∨
        ((opField w = 3 ∨ opField w = 4) ∧ w.extractLsb' 4 8 ≠ 0) ∨
        ((opField w = 2 ∨ opField w = 5 ∨ opField w = 6) ∧ w.extractLsb' 0 12 ≠ 0))) ∧
    ((∃ e, decode w = .error e) → ∀ s, step (presentWord w s) = .refused (.reservedEncoding w))

/-- R90: the ten rows are pairwise disjoint, the decoder reads a word by the row it selects, every word that matches none
is reserved, and `fi` says header or terminator exactly when bit 10 is 0. -/
def Obligations.DecoderAgreesWithTheOpcodeTable : Prop :=
  ∀ w : Word,
    (∀ r ∈ opcodeRows, ∀ r' ∈ opcodeRows, r.selects w = true → r'.selects w = true → r = r') ∧
    (∀ i, decode w = .ok i → ∃ r ∈ opcodeRows, r.mnemonic = i.mnemonic ∧ r.selects w = true) ∧
    ((∃ e, decode w = .error e) ↔ ∀ r ∈ opcodeRows, r.selects w = false) ∧
    params.isHeaderOrTerm (fiField w) = !w.getLsbD 10

/-- Decoding the encoding of any well-formed command gives it back, for every operand value. -/
def Obligations.DecodeInvertsEncode : Prop := ∀ i : Instr, i.wellFormed = true → decode (encode i) = .ok i

/-- Every word has at most one reading: what decodes is well-formed and encodes back to the same word. -/
def Obligations.EncodeInvertsDecode : Prop :=
  ∀ (w : Word) (i : Instr), decode w = .ok i → i.wellFormed = true ∧ encode i = w

/-- R83, R152: a `DECODE` word with fields `fi`, `fn`, `ft`, `dt` decodes to the first matching row of the mode decoder, and
running what it decodes to is the copy-in followed by the routine of the dispatch, for every metadata tuple. -/
def Obligations.ModeDecoderFollowsTheDispatch : Prop :=
  ∀ (fi : BitVec 2) (fn ft : BitVec 3) (dt : BitVec 2),
    decode (wordD fi fn ft dt) = .ok (
      if fi = params.fiHeader ∨ fi = params.fiTerm then .decodeHT fi fn ft dt
      else if dt = 0 then .decodeVD1 fi fn ft
      else if dt = 2 then .decodeVD2 fi fn ft
      else if dt = 1 then .decodeDFR fi fn ft
      else .decodeVFR fi fn ft) ∧
    ∀ (i : Instr) (s : State), decode (wordD fi fn ft dt) = .ok i →
      exec i s = decodeCommand params (dispatchRoutine params fi fn dt) s

/-- A few words written out from R87 and R90 decode to the commands they stand for. -/
def Obligations.SampleWordsDecode : Prop :=
  decode 0x1BFC = .ok (.decodeHT 2 7 7 3) ∧ decode 0x1400 = .ok (.decodeVD1 1 0 0) ∧
    decode 0x1404 = .ok (.decodeDFR 1 0 0) ∧ decode 0x1578 = .ok (.decodeVD2 1 2 7) ∧
    decode 0x16FC = .ok (.decodeVFR 1 5 7) ∧ decode 0x2000 = .ok .encode ∧ decode 0x3004 = .ok (.setUplink 4) ∧
    decode 0x400F = .ok (.setDownlink 15) ∧ decode 0x5000 = .ok .getSource ∧ decode 0x6000 = .ok .getDest

/-! ## The datapath, for every parameter set -/

/-- R113, R262: the positions of a well-formed table are exactly the bit positions of its channel; printed entries are
accepted exactly when they are well-formed, then as they are printed, and otherwise refused as `IllFormedTable`, which is
raised when a table is built (the model's choice, log 23); both default tables (the spec's general-knowledge defaults,
log 4) are well-formed and are the machine's own. -/
def Obligations.TablePositionsAreExactlyTheChannel : Prop :=
  (∀ (m : Nat) (T : Table m),
    ((List.range (4 * m)).flatMap fun i => [T.entry i, T.entry i + 1]).Perm (List.range (8 * m))) ∧
  (∀ (m : Nat) (entries : List Nat),
    ((∃ T, tableOfEntries m entries = .ok T) ↔
      entries.length = 4 * m ∧ (entries.flatMap fun e => [e, e + 1]).Perm (List.range (8 * m))) ∧
    (∀ T, tableOfEntries m entries = .ok T → ∀ i < 4 * m, T.entry i = entries.getD i 0) ∧
    ∀ r, tableOfEntries m entries = .error r → r = .illFormedTable) ∧
  (∃ T, tableOfEntries 45 ((List.range 180).map fun k => 2 * (k / 9) + 40 * (k % 9)) = .ok T ∧
    ∀ k < 180, params.ilv9.entry k = T.entry k) ∧
  ∃ T, tableOfEntries 25 ((List.range 100).map fun k => 2 * (k / 5) + 40 * (k % 5)) = .ok T ∧
    ∀ k < 100, params.ilv5.entry k = T.entry k

/-- R120: deinterleaving and re-interleaving are inverse to each other and keep the number of 1 bits. -/
def Obligations.InterleaveAndDeinterleaveAreInverse : Prop :=
  ∀ (m : Nat) (T : Table m),
    (∀ cb : List Bool, cb.length = 8 * m → deinterleave T (interleave T cb) = pairsOf cb) ∧
    (∀ d : List Byte, d.length = m → interleave T (flattenPairs (deinterleave T d)) = d) ∧
    (∀ cb : List Bool, cb.length = 8 * m →
      ((List.range (8 * m)).map (getBit (interleave T cb))).count true = cb.count true) ∧
    ∀ d : List Byte, d.length = m →
      (flattenPairs (deinterleave T d)).count true = ((List.range (8 * m)).map (getBit d)).count true

/-- R125: whitening is self-inverse, for every mask. -/
def Obligations.WhiteningIsSelfInverse : Prop :=
  ∀ (p : Params) (B : List Byte) (n : Nat), n ≤ B.length → whiten p (whiten p B n) n = B.take n

/-- R133, R134, both operations from one function of the information bytes (log 9): after `CrcAdd` the check is true, a checked buffer is left as it is, and no byte but `B[n]`, `B[n+1]`
changes. -/
def Obligations.CrcCollaboratorMeetsItsContract : Prop :=
  ∀ (p : Params) (B : List Byte) (n : Nat), n + 2 ≤ B.length →
    crcCheck p (crcAdd p B n) n = true ∧ (crcCheck p B n = true → crcAdd p B n = B) ∧
    ∀ k, k ≠ n → k ≠ n + 1 → (crcAdd p B n)[k]? = B[k]?

/-- R119: `Extract25` after `Insert25` gives the buffer back, and nothing outside the five groups changes. -/
def Obligations.InsertedChannelIsExtractedAgain : Prop :=
  ∀ (d : List Byte) (s : State), d.length = 25 →
    extract25 (insert25 d s) = .ok d ∧ groupsHold (insert25 d s) d ∧
    (∀ k, ¬ inGroup k → (insert25 d s).byte .payload k = s.byte .payload k) ∧
    insert25 d s = { s with payload := (insert25 d s).payload }

/-- R221, R174: whatever the input, every produced coded buffer of V/D Mode 2 is 25 bytes and its decoded block 12 (13
with padding), 10 of them information; what the three extractions return has 25 or 45 bytes; a 45-byte channel feeds 180
pairs, decodes to 22 bytes whose last two are checked against the first 20, and 20 are dewhitened. -/
def Obligations.BlockSizesAreFixed : Prop :=
  (∀ (p : Params) (d W : List Byte),
    (reencode p W).length = 25 ∧ (convDecode p (deinterleave p.ilv5 d) 96).length = 12 ∧
    (decodedBlock10 p d).length = 13 ∧ ((decodedBlock10 p d).take 10).length = 10 ∧
    (deinterleave p.ilv9 d).length = 180 ∧ (decodedBlock20 p d).length = 22 ∧
    (crcCheck p (decodedBlock20 p d) 20 = true ↔
      ((decodedBlock20 p d).getD 20 0, (decodedBlock20 p d).getD 21 0) = p.crc ((decodedBlock20 p d).take 20)) ∧
    (whiten p (decodedBlock20 p d) 20).length = 20) ∧
  ∀ s : State,
    (∀ d, extract25 s = .ok d → d.length = 25) ∧ (∀ d, extract45 s = .ok d → d.length = 45) ∧
    ∀ d1 d2, extract2x45 s = .ok (d1, d2) → d1.length = 45 ∧ d2.length = 45

/-- Equal memories are equal lists: two canonical memories that read the same everywhere are the same. -/
def Obligations.CanonicalMemoriesAreEqualWhenTheyReadEqual : Prop :=
  ∀ (unl : Option Byte) (size : Nat) (m m' : Memory), Memory.wf unl size m → Memory.wf unl size m' →
    (∀ a, Memory.read unl m a = Memory.read unl m' a) → m = m'

/-! ## What each command does, and what it leaves -/

/-- `exec` is the engine of any parameter set at the machine's own parameters (R5). -/
def Obligations.ExecIsTheParametricEngine : Prop := ∀ (i : Instr) (s : State), exec i s = execWith params i s

/-- R170, R171, R137: `DECODE.HT` and `DECODE.DFR` complete on every frame that is long enough: the payload is copied in,
each half-channel that passes its CRC is traced, first half first, `RESULT` is 1, nothing else changes. -/
def Obligations.TwoHalfChannelDecodesComplete : Prop :=
  ∀ (fi : BitVec 2) (fn ft : BitVec 3) (dt : BitVec 2) (s : State), params.payloadOff + 90 ≤ s.frameLen →
    (∃ t, exec (.decodeHT fi fn ft dt) s = .next t ∧
      observedDecode params s t (blockTrace params .ht1 (channel 9 0 (window params s)) ++
        blockTrace params .ht2 (channel 9 9 (window params s)))) ∧
    ∃ t, exec (.decodeDFR fi fn ft) s = .next t ∧
      observedDecode params s t (blockTrace params .dfr1 (channel 9 0 (window params s)) ++
        blockTrace params .dfr2 (channel 9 9 (window params s)))

/-- R190, R155: `DECODE.VD1` and `DECODE.VFR` complete on every frame that is long enough: the first copies in and traces
its one channel when the CRC passes, the second only copies in. -/
def Obligations.VoiceDataOneAndVoiceFullRateComplete : Prop :=
  ∀ (fi : BitVec 2) (fn ft : BitVec 3) (s : State), params.payloadOff + 90 ≤ s.frameLen →
    (∃ t, exec (.decodeVD1 fi fn ft) s = .next t ∧
      observedDecode params s t (blockTrace params .vd1 (channel 9 0 (window params s)))) ∧
    ∃ t, exec (.decodeVFR fi fn ft) s = .next t ∧ observedDecode params s t []

/-- R217: the complete decision table of `DECODE.VD2` (`vd2Table`), which completes on every frame that is long enough: on
the machine, and on an engine of any parameter set. -/
def Obligations.VoiceDataTwoDecisionTable : Prop :=
  ∀ (fi : BitVec 2) (fn ft : BitVec 3) (s : State),
    (params.payloadOff + 90 ≤ s.frameLen →
      ∃ t, exec (.decodeVD2 fi fn ft) s = .next t ∧ vd2Table params fn s t) ∧
    ∀ p : Params, p.payloadOff + 90 ≤ s.frameLen →
      ∃ t, execWith p (.decodeVD2 fi fn ft) s = .next t ∧ vd2Table p fn s t

/-- R157, R158: `ENCODE` is refused before any `DECODE` (under that name whatever the frame: the model's choice, log 15);
otherwise it copies `PAYLOAD` to the payload region of `FRAME` and changes nothing else. -/
def Obligations.EncodeCopiesThePayloadOut : Prop :=
  encode .encode = 0x2000 ∧
  ∀ s : State,
    (s.payloadValid = false → exec .encode s = .refused .encodeBeforeDecode) ∧
    (s.payloadValid = true → params.payloadOff + 90 ≤ s.frameLen → (∀ k < 90, (s.byte .payload k).isSome) →
      ∃ t, exec .encode s = .next t ∧ t = { s with frame := t.frame } ∧
        (∀ k < 90, t.byte .frame (params.payloadOff + k) = s.byte .payload k) ∧
        (∀ a, a < params.payloadOff ∨ params.payloadOff + 90 ≤ a → t.byte .frame a = s.byte .frame a) ∧
        ∃ u, exec .encode t = .next u ∧ ∀ a, u.byte .frame a = t.byte .frame a)

/-- R240 to R242: `SET_UPLINK` and `SET_DOWNLINK` put the padded string of `CSIN` into their slot, for every `len` and
every state, and change nothing else. -/
def Obligations.SetCommandsStoreThePaddedString : Prop :=
  ∀ (len : BitVec 4) (s : State),
    encode (.setUplink len) = 0x3000 + len.zeroExtend 16 ∧ encode (.setDownlink len) = 0x4000 + len.zeroExtend 16 ∧
    ∃ c : Callsign,
      (∀ j < 10, c.bytes[j]? = if j < min len.toNat 10 then s.byte .csin j else some params.pad) ∧
      exec (.setUplink len) s = .next { s with uplink := some c } ∧
      exec (.setDownlink len) s = .next { s with downlink := some c }

/-- R243, R244: `GET_SOURCE` and `GET_DEST` take their mailbox into `CSOUT`, or report it empty and change nothing but
`RESULT`. -/
def Obligations.GetCommandsTakeTheMailbox : Prop :=
  encode .getSource = 0x5000 ∧ encode .getDest = 0x6000 ∧
  ∀ s : State,
    (s.source = none → exec .getSource s = .next { s with result := false }) ∧
    (s.dest = none → exec .getDest s = .next { s with result := false }) ∧
    (∀ c, s.source = some c → ∃ t, exec .getSource s = .next t ∧
      t = { s with source := none, result := true, csout := t.csout } ∧ ∀ j < 10, t.byte .csout j = c.bytes[j]?) ∧
    ∀ c, s.dest = some c → ∃ t, exec .getDest s = .next t ∧
      t = { s with dest := none, result := true, csout := t.csout } ∧ ∀ j < 10, t.byte .csout j = c.bytes[j]?

/-! ## Whole-machine rules -/

/-- R23: the complete life cycle of the four slots, with the outputs of the two `GET` commands and the reset row. -/
def Obligations.SlotsFollowTheirLifeCycle : Prop :=
  (∀ (i : Instr) (s t : State), exec i s = .next t →
    (∀ sl, t.slot sl = slotAfter params i s sl) ∧
    (i = .getDest → ∀ c, s.dest = some c → t.result = true ∧ ∀ j < 10, t.byte .csout j = c.bytes[j]?) ∧
    (i = .getDest → s.dest = none → t.result = false) ∧
    (i = .getSource → ∀ c, s.source = some c → t.result = true ∧ ∀ j < 10, t.byte .csout j = c.bytes[j]?) ∧
    (i = .getSource → s.source = none → t.result = false)) ∧
  ∀ (s : State) (sl : Slot), State.reset.slot sl = none ∧ (resetEngine s).slot sl = none

/-- R20: no command changes two slots. -/
def Obligations.AtMostOneSlotChanges : Prop :=
  ∀ (i : Instr) (s t : State), exec i s = .next t →
    ∀ sl sl', t.slot sl ≠ s.slot sl → t.slot sl' ≠ s.slot sl' → sl = sl'

/-- R21: `UPLINK` and `DOWNLINK` are written only by their `SET` command, cleared by none, and read only by the repair of
V/D Mode 2: no other command can tell what they hold. -/
def Obligations.SetSlotsAreReadOnlyByTheRepair : Prop :=
  ∀ (i : Instr) (s t : State), exec i s = .next t →
    (t.uplink ≠ s.uplink → ∃ len, i = .setUplink len) ∧ (t.downlink ≠ s.downlink → ∃ len, i = .setDownlink len) ∧
    (s.uplink ≠ none → t.uplink ≠ none) ∧ (s.downlink ≠ none → t.downlink ≠ none) ∧
    ((∀ fi ft, i ≠ .decodeVD2 fi 3 ft) → ∀ u, ∃ t', exec i { s with uplink := u } = .next t' ∧
      { t' with uplink := t.uplink } = t) ∧
    ((∀ fi ft, i ≠ .decodeVD2 fi 2 ft) → ∀ d, ∃ t', exec i { s with downlink := d } = .next t' ∧
      { t' with downlink := t.downlink } = t)

/-- R205, R206: what a CRC-validated V/D Mode 2 frame with `fn` 0 or 1 stores, under either mailbox policy. -/
def Obligations.MailboxStoreFollowsThePolicy : Prop :=
  ∀ (p : Params) (fi : BitVec 2) (ft : BitVec 3) (s t : State), vd2Crc p s = true →
    (vd2Callsign p s).bytes = whiten p (vd2Info p s) 10 ∧
    (execWith p (.decodeVD2 fi 0 ft) s = .next t →
      (s.dest = none → t.dest = some (vd2Callsign p s)) ∧
      (∀ c, s.dest = some c → p.mailboxPolicy = .overwrite → t.dest = some (vd2Callsign p s)) ∧
      (∀ c, s.dest = some c → p.mailboxPolicy = .keepFirst → t.dest = some c)) ∧
    (execWith p (.decodeVD2 fi 1 ft) s = .next t →
      (s.source = none → t.source = some (vd2Callsign p s)) ∧
      (∀ c, s.source = some c → p.mailboxPolicy = .overwrite → t.source = some (vd2Callsign p s)) ∧
      (∀ c, s.source = some c → p.mailboxPolicy = .keepFirst → t.source = some c))

/-- R245: a mailbox that was taken is empty at the next `GET`, stays empty until a V/D Mode 2 frame with its `fn` passes
the CRC check (whatever the parameters), and both mailboxes are empty after reset. -/
def Obligations.SecondGetFindsNothing : Prop :=
  (∀ s t : State, exec .getSource s = .next t → t.source = none ∧ exec .getSource t = .next { t with result := false }) ∧
  (∀ s t : State, exec .getDest s = .next t → t.dest = none ∧ exec .getDest t = .next { t with result := false }) ∧
  (∀ (p : Params) (i : Instr) (s t : State), execWith p i s = .next t →
    (s.source = none → t.source ≠ none → (∃ fi ft, i = .decodeVD2 fi 1 ft) ∧ vd2Crc p s = true) ∧
    (s.dest = none → t.dest ≠ none → (∃ fi ft, i = .decodeVD2 fi 0 ft) ∧ vd2Crc p s = true)) ∧
  exec .getSource State.reset = .next { State.reset with result := false } ∧
  exec .getDest State.reset = .next { State.reset with result := false }

/-- R153: the value of `RESULT` after every command that completes. -/
def Obligations.ResultFlagIsAsSpecified : Prop :=
  ∀ (i : Instr) (s t : State), exec i s = .next t → t.result = resultAfter params i s

/-- R58: which fields each command can write. -/
def Obligations.CommandsWriteOnlyTheirOwnState : Prop :=
  ∀ (i : Instr) (s t : State), exec i s = .next t →
    t.csin = s.csin ∧ t.frameLen = s.frameLen ∧ t.pending = s.pending ∧
    (i ≠ .encode → t.frame = s.frame) ∧
    (i ≠ .getSource → i ≠ .getDest → t.csout = s.csout) ∧
    (i.isDecode = false → t.payload = s.payload ∧ t.payloadValid = s.payloadValid ∧ t.trace = s.trace) ∧
    ∃ events, t.trace = s.trace ++ events ∧ events.length ≤ 2

/-- R159: the payload state machine, under every parameter set: every `DECODE` leaves `EMPTY` for good; `LOADED` after any
`DECODE` but a V/D Mode 2 that returns 1; `REGENERATED` after that one. -/
def Obligations.PayloadFollowsItsStateMachine : Prop :=
  ∀ (p : Params) (i : Instr) (s t : State), execWith p i s = .next t →
    (s.payloadValid = true → t.payloadValid = true) ∧
    (i.isDecode = true → t.payloadValid = true) ∧
    (i.isDecode = true → (∀ fi fn ft, i ≠ .decodeVD2 fi fn ft) ∨ t.result = false → loaded p s t) ∧
    (∀ fi fn ft, i = .decodeVD2 fi fn ft → t.result = true →
      (∀ k < 90, ¬ inGroup k → t.byte .payload k = s.byte .frame (p.payloadOff + k)) ∧
      ∃ W, validBlock p (substitute fn s) (vd2Crc p s) (vd2Info p s) = some W ∧ groupsHold t (reencode p W)) ∧
    (i.isDecode = false → ∀ k, t.byte .payload k = s.byte .payload k)

/-- R154, R302: after a `DECODE` that returned 0 the payload, the slots and the trace are as if nothing had been decoded,
and an `ENCODE` reproduces the input payload, under every parameter set. -/
def Obligations.FailedDecodeKeepsTheInput : Prop :=
  ∀ (p : Params) (i : Instr) (s t : State), i.isDecode = true → execWith p i s = .next t → t.result = false →
    (∀ sl, t.slot sl = s.slot sl) ∧ t.trace = s.trace ∧ loaded p s t ∧
    ∃ u, execWith p .encode t = .next u ∧ ∀ a, u.byte .frame a = s.byte .frame a

/-- R58: a `DECODE` of the same frame twice is idempotent on `PAYLOAD` and `RESULT`. -/
def Obligations.DecodeTwiceIsDecodeOnce : Prop :=
  ∀ (i : Instr) (s t u : State), i.isDecode = true → exec i s = .next t → exec i t = .next u →
    u.result = t.result ∧ ∀ k < 90, u.byte .payload k = t.byte .payload k

/-- R57: no command reads or writes `FRAME` outside the payload region: two runs on frames that agree on the payload
region end alike, and every byte outside it is kept. -/
def Obligations.FrameOutsideThePayloadIsNeverTouched : Prop :=
  ∀ (i : Instr) (s : State) (f : Memory),
    (∀ k < 90, ({ s with frame := f } : State).byte .frame (params.payloadOff + k) = s.byte .frame (params.payloadOff + k)) →
    (∀ r, exec i s = .refused r → exec i { s with frame := f } = .refused r) ∧
    (∀ e, exec i s = .fault e → exec i { s with frame := f } = .fault e) ∧
    ∀ t, exec i s = .next t →
      (∀ a, a < params.payloadOff ∨ params.payloadOff + 90 ≤ a → t.byte .frame a = s.byte .frame a) ∧
      ∃ t', exec i { s with frame := f } = .next t' ∧ { t' with frame := t.frame } = t ∧
        ∀ k < 90, t'.byte .frame (params.payloadOff + k) = t.byte .frame (params.payloadOff + k)

/-- R60, R192: the payload bytes a mode never interprets cannot influence its result, its trace or the slots: the
companion region of V/D Mode 1, the 13 bytes after each group of V/D Mode 2, all of Voice Full-Rate. -/
def Obligations.UninterpretedPayloadBytesDoNotMatter : Prop :=
  ∀ (fi : BitVec 2) (fn ft : BitVec 3) (s : State) (f : Memory) (t t' : State),
    (exec (.decodeVD1 fi fn ft) s = .next t → exec (.decodeVD1 fi fn ft) { s with frame := f } = .next t' →
      (∀ k < 90, k % 18 < 9 →
        ({ s with frame := f } : State).byte .frame (params.payloadOff + k) = s.byte .frame (params.payloadOff + k)) →
      t'.trace = t.trace ∧ t'.result = t.result ∧ ∀ sl, t'.slot sl = t.slot sl) ∧
    (exec (.decodeVD2 fi fn ft) s = .next t → exec (.decodeVD2 fi fn ft) { s with frame := f } = .next t' →
      (∀ k < 90, k % 18 < 5 →
        ({ s with frame := f } : State).byte .frame (params.payloadOff + k) = s.byte .frame (params.payloadOff + k)) →
      t'.trace = t.trace ∧ t'.result = t.result ∧ (∀ sl, t'.slot sl = t.slot sl) ∧
        ∀ k, inGroup k → t'.byte .payload k = t.byte .payload k) ∧
    (exec (.decodeVFR fi fn ft) s = .next t → exec (.decodeVFR fi fn ft) { s with frame := f } = .next t' →
      t'.trace = t.trace ∧ t'.result = t.result ∧ ∀ sl, t'.slot sl = t.slot sl)

/-- R33, R220: nothing but the slots flows from one command into a `DECODE`: the old `PAYLOAD`, `PAYLOAD_VALID` and
`RESULT` have no influence on what it leaves. -/
def Obligations.DecodeForgetsTheOldPayload : Prop :=
  ∀ (i : Instr) (s t : State) (m : Memory) (v r : Bool), i.isDecode = true → exec i s = .next t →
    ∃ u, exec i { s with payload := m, payloadValid := v, result := r } = .next u ∧
      { u with payload := t.payload } = t ∧ ∀ k < 90, u.byte .payload k = t.byte .payload k

/-- R32: two engines that differ only in `TRACE_EN` and in what stands on `TRACE` have identical slot, `PAYLOAD`, `RESULT`
and buffer behaviour; `TRACE` is only appended to. -/
def Obligations.TraceIsNeverRead : Prop :=
  ∀ (p : Params) (on : Bool) (i : Instr) (s t : State) (log : List TraceEvent), execWith p i s = .next t →
    ∃ u, execWith { p with traceEn := on } i { s with trace := log } = .next u ∧ { u with trace := t.trace } = t ∧
      ∃ events, u.trace = log ++ events ∧ (on = false → events = [])

/-- R214: decoding an uncorrupted, CRC-validated V/D Mode 2 frame without substitution leaves the payload as it came,
under every parameter set. -/
def Obligations.UncorruptedFrameRoundTrips : Prop :=
  ∀ (p : Params) (fi : BitVec 2) (fn ft : BitVec 3) (s t : State),
    execWith p (.decodeVD2 fi fn ft) s = .next t → vd2Crc p s = true → substitute fn s = none →
    flattenPairs (deinterleave p.ilv5 (channel 5 0 (window p s))) = convEncode p (vd2Out p s) 100 →
    loaded p s t

/-- R215: after a substitution of callsign `c`, the rewritten groups decode to a CRC-valid block whose plaintext is `c`,
under every parameter set whose convolutional collaborator round-trips. -/
def Obligations.RepairedFrameDecodesToTheCallsign : Prop :=
  ∀ (p : Params), ConvRoundTrip p →
    ∀ (fi : BitVec 2) (fn ft : BitVec 3) (s t : State) (c : Callsign),
      execWith p (.decodeVD2 fi fn ft) s = .next t → substitute fn s = some c →
      t.result = true ∧ ∃ d, extract25 t = .ok d ∧ crcCheck p (decodedBlock10 p d) 10 = true ∧
        whiten p ((decodedBlock10 p d).take 10) 10 = c.bytes

/-- R216: the regenerated groups depend on the decoded block alone, not on the received coded bits: corrected errors are
cleaned. -/
def Obligations.RegenerationDependsOnTheDecodedBlockOnly : Prop :=
  ∀ (p : Params) (fi : BitVec 2) (fn ft : BitVec 3) (s s' t t' : State),
    execWith p (.decodeVD2 fi fn ft) s = .next t → execWith p (.decodeVD2 fi fn ft) s' = .next t' →
    vd2Crc p s = true → substitute fn s = none → substitute fn s' = none → vd2Out p s' = vd2Out p s →
    ∀ k, inGroup k → t'.byte .payload k = t.byte .payload k

/-- R176: a frame whose channels carry a 20-byte plaintext, whitened, with its CRC, coded and interleaved, decodes to that
plaintext, under every parameter set whose convolutional collaborator round-trips. -/
def Obligations.BuiltBlocksDecodeToTheirPlaintext : Prop :=
  ∀ (p : Params), ConvRoundTrip p →
    ∀ (fi : BitVec 2) (fn ft : BitVec 3) (dt : BitVec 2) (P Q : List Byte) (s : State), P.length = 20 → Q.length = 20 →
      p.payloadOff + 90 ≤ s.frameLen → channel 9 0 (window p s) = codedBlock20 p P →
      (channel 9 9 (window p s) = codedBlock20 p Q →
        (∃ t, execWith p (.decodeHT fi fn ft dt) s = .next t ∧
          observedDecode p s t (if p.traceEn then [⟨.ht1, P⟩, ⟨.ht2, Q⟩] else [])) ∧
        ∃ t, execWith p (.decodeDFR fi fn ft) s = .next t ∧
          observedDecode p s t (if p.traceEn then [⟨.dfr1, P⟩, ⟨.dfr2, Q⟩] else [])) ∧
      ∃ t, execWith p (.decodeVD1 fi fn ft) s = .next t ∧
        observedDecode p s t (if p.traceEn then [⟨.vd1, P⟩] else [])

/-- R112: the default tables in closed form at their corners, as printed (the spec's general-knowledge defaults, log 4). -/
def Obligations.DefaultTablesHaveThePrintedEntries : Prop :=
  [0, 1, 8, 9, 10, 90, 178, 179].map params.ilv9.entry = [0, 40, 320, 2, 42, 20, 318, 358] ∧
  [0, 1, 4, 5, 50, 98, 99].map params.ilv5.entry = [0, 40, 160, 2, 20, 158, 198]

/-! ## Engines of every parameter set (R5) -/

/-- R5: the machine's word decoder, step and reset are those of the parametric engine at the machine's own parameters. -/
def Obligations.MachineIsTheParametricEngine : Prop :=
  (∀ w : Word, decode w = decodeWith params w) ∧ (∀ s : State, step s = stepWith params s) ∧
    State.reset = State.resetWith params ∧ ∀ i : Instr, i.wellFormed = i.wellFormedWith params

/-- R5, R82, R83, R152: in an engine of any parameter set a `DECODE` word is selected by that set's `fi` codes, and the step
that is given it runs the copy-in and the routine of the dispatch. -/
def Obligations.EveryEngineDispatchesByItsOwnCodes : Prop :=
  ∀ (p : Params) (fi : BitVec 2) (fn ft : BitVec 3) (dt : BitVec 2),
    decodeWith p (wordD fi fn ft dt) = .ok (
      if fi = p.fiHeader ∨ fi = p.fiTerm then .decodeHT fi fn ft dt
      else if dt = 0 then .decodeVD1 fi fn ft
      else if dt = 2 then .decodeVD2 fi fn ft
      else if dt = 1 then .decodeDFR fi fn ft
      else .decodeVFR fi fn ft) ∧
    ∀ s : State, stepWith p (presentWord (wordD fi fn ft dt) s) = decodeCommand p (dispatchRoutine p fi fn dt) s

/-- R5, R87 to R91: in an engine of any parameter set decoding and encoding are inverse to each other, on the commands
its mode decoder can select, and presenting an encoding runs that command. -/
def Obligations.EveryEngineDecodesWhatItEncodes : Prop :=
  ∀ p : Params,
    (∀ i : Instr, i.wellFormedWith p = true →
      decodeWith p (encode i) = .ok i ∧ ∀ s : State, stepWith p (presentWord (encode i) s) = execWith p i s) ∧
    ∀ (w : Word) (i : Instr), decodeWith p w = .ok i → i.wellFormedWith p = true ∧ encode i = w

/-- Every step of an engine of any parameter set keeps the invariant, from every state that has it, and its reset state
has it. -/
def Obligations.EveryEngineKeepsTheInvariant : Prop :=
  ∀ p : Params, (State.resetWith p).Inv ∧ ∀ s t : State, s.Inv → stepWith p s = .next t → t.Inv

/-- R5, R35, R262: an engine of any parameter set starts with a frame of its own `FRAME_LEN` bytes, and no command is ever
refused as `FrameTooShort` with a frame of that length. -/
def Obligations.FrameOfFrameLenIsNeverTooShort : Prop :=
  ∀ p : Params, (State.resetWith p).frameLen = p.frameLen ∧
    ∀ (i : Instr) (s : State), s.frameLen = p.frameLen →
      execWith p i s ≠ .refused .frameTooShort ∧
      (i.isDecode = true → ∃ t, execWith p i s = .next t ∧ t.payloadValid = true ∧ t.frameLen = p.frameLen)
end

