-- ==== Sys2Proof/Laws/State.lean ====
section
/-! SUPPORT. One lemma per field per update of the state record. -/

namespace Sys2Proof.Machine

section setResult
variable (b : Bool) (s : State)
@[simp] theorem setResult_uplink : (setResult b s).uplink = s.uplink := rfl
@[simp] theorem setResult_downlink : (setResult b s).downlink = s.downlink := rfl
@[simp] theorem setResult_source : (setResult b s).source = s.source := rfl
@[simp] theorem setResult_dest : (setResult b s).dest = s.dest := rfl
@[simp] theorem setResult_payload : (setResult b s).payload = s.payload := rfl
@[simp] theorem setResult_payloadValid : (setResult b s).payloadValid = s.payloadValid := rfl
@[simp] theorem setResult_result : (setResult b s).result = b := rfl
@[simp] theorem setResult_frame : (setResult b s).frame = s.frame := rfl
@[simp] theorem setResult_frameLen : (setResult b s).frameLen = s.frameLen := rfl
@[simp] theorem setResult_csin : (setResult b s).csin = s.csin := rfl
@[simp] theorem setResult_csout : (setResult b s).csout = s.csout := rfl
@[simp] theorem setResult_trace : (setResult b s).trace = s.trace := rfl
@[simp] theorem setResult_pending : (setResult b s).pending = s.pending := rfl
@[simp] theorem setResult_slot (sl : Slot) : (setResult b s).slot sl = s.slot sl := by cases sl <;> rfl
@[simp] theorem setResult_mem (sp : Space) : (setResult b s).mem sp = s.mem sp := by cases sp <;> rfl
@[simp] theorem setResult_size (sp : Space) : (setResult b s).size sp = s.size sp := by cases sp <;> rfl
@[simp] theorem setResult_byte (sp : Space) (a : Nat) : (setResult b s).byte sp a = s.byte sp a := by cases sp <;> rfl
end setResult

section setSlot
variable (s : State) (sl : Slot) (v : Option Callsign)
@[simp] theorem setSlot_payload : (s.setSlot sl v).payload = s.payload := by cases sl <;> rfl
@[simp] theorem setSlot_payloadValid : (s.setSlot sl v).payloadValid = s.payloadValid := by cases sl <;> rfl
@[simp] theorem setSlot_result : (s.setSlot sl v).result = s.result := by cases sl <;> rfl
@[simp] theorem setSlot_frame : (s.setSlot sl v).frame = s.frame := by cases sl <;> rfl
@[simp] theorem setSlot_frameLen : (s.setSlot sl v).frameLen = s.frameLen := by cases sl <;> rfl
@[simp] theorem setSlot_csin : (s.setSlot sl v).csin = s.csin := by cases sl <;> rfl
@[simp] theorem setSlot_csout : (s.setSlot sl v).csout = s.csout := by cases sl <;> rfl
@[simp] theorem setSlot_trace : (s.setSlot sl v).trace = s.trace := by cases sl <;> rfl
@[simp] theorem setSlot_pending : (s.setSlot sl v).pending = s.pending := by cases sl <;> rfl
@[simp] theorem setSlot_slot : (s.setSlot sl v).slot sl = v := by cases sl <;> rfl
theorem setSlot_slot_ne (sl' : Slot) (h : sl' ≠ sl) : (s.setSlot sl v).slot sl' = s.slot sl' := by
  cases sl <;> cases sl' <;> first | rfl | exact absurd rfl h
@[simp] theorem setSlot_mem (sp : Space) : (s.setSlot sl v).mem sp = s.mem sp := by cases sl <;> cases sp <;> rfl
@[simp] theorem setSlot_size (sp : Space) : (s.setSlot sl v).size sp = s.size sp := by cases sl <;> cases sp <;> rfl
@[simp] theorem setSlot_byte (sp : Space) (a : Nat) : (s.setSlot sl v).byte sp a = s.byte sp a := by
  cases sl <;> cases sp <;> rfl
end setSlot

section setMem
variable (s : State) (sp : Space) (m : Memory)
@[simp] theorem setMem_uplink : (s.setMem sp m).uplink = s.uplink := by cases sp <;> rfl
@[simp] theorem setMem_downlink : (s.setMem sp m).downlink = s.downlink := by cases sp <;> rfl
@[simp] theorem setMem_source : (s.setMem sp m).source = s.source := by cases sp <;> rfl
@[simp] theorem setMem_dest : (s.setMem sp m).dest = s.dest := by cases sp <;> rfl
@[simp] theorem setMem_payloadValid : (s.setMem sp m).payloadValid = s.payloadValid := by cases sp <;> rfl
@[simp] theorem setMem_result : (s.setMem sp m).result = s.result := by cases sp <;> rfl
@[simp] theorem setMem_frameLen : (s.setMem sp m).frameLen = s.frameLen := by cases sp <;> rfl
@[simp] theorem setMem_trace : (s.setMem sp m).trace = s.trace := by cases sp <;> rfl
@[simp] theorem setMem_pending : (s.setMem sp m).pending = s.pending := by cases sp <;> rfl
@[simp] theorem setMem_slot (sl : Slot) : (s.setMem sp m).slot sl = s.slot sl := by cases sp <;> cases sl <;> rfl
@[simp] theorem setMem_size (sp' : Space) : (s.setMem sp m).size sp' = s.size sp' := by cases sp <;> cases sp' <;> rfl
@[simp] theorem setMem_mem : (s.setMem sp m).mem sp = m := by cases sp <;> rfl
theorem setMem_mem_ne (sp' : Space) (h : sp' ≠ sp) : (s.setMem sp m).mem sp' = s.mem sp' := by
  cases sp <;> cases sp' <;> first | rfl | exact absurd rfl h
theorem setMem_byte_ne (sp' : Space) (h : sp' ≠ sp) (a : Nat) : (s.setMem sp m).byte sp' a = s.byte sp' a := by
  simp [State.byte, setMem_mem_ne _ _ _ _ h]
end setMem

section emitTrace
variable (p : Params) (tag : TraceTag) (bs : List Byte) (s : State)
@[simp] theorem emitTrace_uplink : (emitTrace p tag bs s).uplink = s.uplink := rfl
@[simp] theorem emitTrace_downlink : (emitTrace p tag bs s).downlink = s.downlink := rfl
@[simp] theorem emitTrace_source : (emitTrace p tag bs s).source = s.source := rfl
@[simp] theorem emitTrace_dest : (emitTrace p tag bs s).dest = s.dest := rfl
@[simp] theorem emitTrace_payload : (emitTrace p tag bs s).payload = s.payload := rfl
@[simp] theorem emitTrace_payloadValid : (emitTrace p tag bs s).payloadValid = s.payloadValid := rfl
@[simp] theorem emitTrace_result : (emitTrace p tag bs s).result = s.result := rfl
@[simp] theorem emitTrace_frame : (emitTrace p tag bs s).frame = s.frame := rfl
@[simp] theorem emitTrace_frameLen : (emitTrace p tag bs s).frameLen = s.frameLen := rfl
@[simp] theorem emitTrace_csin : (emitTrace p tag bs s).csin = s.csin := rfl
@[simp] theorem emitTrace_csout : (emitTrace p tag bs s).csout = s.csout := rfl
@[simp] theorem emitTrace_trace :
    (emitTrace p tag bs s).trace = s.trace ++ if p.traceEn then [⟨tag, bs⟩] else [] := rfl
@[simp] theorem emitTrace_pending : (emitTrace p tag bs s).pending = s.pending := rfl
@[simp] theorem emitTrace_slot (sl : Slot) : (emitTrace p tag bs s).slot sl = s.slot sl := by cases sl <;> rfl
@[simp] theorem emitTrace_mem (sp : Space) : (emitTrace p tag bs s).mem sp = s.mem sp := by cases sp <;> rfl
@[simp] theorem emitTrace_size (sp : Space) : (emitTrace p tag bs s).size sp = s.size sp := by cases sp <;> rfl
@[simp] theorem emitTrace_byte (sp : Space) (a : Nat) : (emitTrace p tag bs s).byte sp a = s.byte sp a := by
  cases sp <;> rfl
end emitTrace

section resetWith
variable (p : Params)
@[simp] theorem resetWith_payload : (State.resetWith p).payload = [] := rfl
@[simp] theorem resetWith_payloadValid : (State.resetWith p).payloadValid = false := rfl
@[simp] theorem resetWith_result : (State.resetWith p).result = false := rfl
@[simp] theorem resetWith_frame : (State.resetWith p).frame = [] := rfl
@[simp] theorem resetWith_frameLen : (State.resetWith p).frameLen = p.frameLen := rfl
@[simp] theorem resetWith_csin : (State.resetWith p).csin = [] := rfl
@[simp] theorem resetWith_csout : (State.resetWith p).csout = [] := rfl
@[simp] theorem resetWith_trace : (State.resetWith p).trace = [] := rfl
@[simp] theorem resetWith_pending : (State.resetWith p).pending = [] := rfl
@[simp] theorem resetWith_slot (sl : Slot) : (State.resetWith p).slot sl = none := by cases sl <;> rfl
end resetWith

/-- Two states with the same fields are the same state. -/
theorem State.ext_fields {s t : State} (h1 : s.uplink = t.uplink) (h2 : s.downlink = t.downlink)
    (h3 : s.source = t.source) (h4 : s.dest = t.dest) (h5 : s.payload = t.payload)
    (h6 : s.payloadValid = t.payloadValid) (h7 : s.result = t.result) (h8 : s.frame = t.frame)
    (h9 : s.frameLen = t.frameLen) (h10 : s.csin = t.csin) (h11 : s.csout = t.csout) (h12 : s.trace = t.trace)
    (h13 : s.pending = t.pending) : s = t := by
  cases s; cases t; simp_all

end Sys2Proof.Machine
end

