-- ==== Sys2Proof/Laws/Memory.lean ====
section
/-! SUPPORT. The laws of one byte space: what a write leaves readable, and that it keeps the canonical form. -/

namespace Sys2Proof.Machine

theorem find_append (m n : Memory) (a : Nat) :
    Memory.find (m ++ n) a = (Memory.find m a).or (Memory.find n a) := by
  induction m with
  | nil => simp [Memory.find]
  | cons c m ih => by_cases h : c.1 = a <;> simp [Memory.find, h, ih]

/-- Filtering by address keeps what is listed at a kept address. -/
theorem find_filter_addr (f : Nat → Bool) (m : Memory) (a : Nat) :
    Memory.find (m.filter fun c => f c.1) a = if f a then Memory.find m a else none := by
  induction m with
  | nil => simp [Memory.find]
  | cons c m ih =>
    by_cases hc : f c.1 <;> by_cases h : c.1 = a <;> simp_all [Memory.find]

/-- A run lists exactly its own bytes, less those equal to the unlisted value. -/
theorem find_cells (unl : Option Byte) (bs : List Byte) (a k : Nat) :
    Memory.find ((Memory.cells a bs).filter fun c => some c.2 ≠ unl) k =
      if a ≤ k then (if bs[k - a]? = unl then none else bs[k - a]?) else none := by
  induction bs generalizing a with
  | nil => simp [Memory.cells, Memory.find]
  | cons b bs ih =>
    have hs : a < k → (b :: bs)[k - a]? = bs[k - (a + 1)]? := by
      intro h; rw [show k - a = (k - (a + 1)) + 1 by omega, List.getElem?_cons_succ]
    rw [Memory.cells, List.filter_cons]
    rcases Nat.lt_trichotomy a k with h | rfl | h
    · rw [hs h, if_pos h.le]
      split
      · rw [Memory.find, if_neg h.ne, ih, if_pos (Nat.succ_le_of_lt h)]
      · rw [ih, if_pos (Nat.succ_le_of_lt h)]
    · split <;> rename_i hb
      · simp_all [Memory.find]
      · rw [ih]; simp_all
    · rw [if_neg (Nat.not_le.2 h)]
      split
      · rw [Memory.find, if_neg h.ne', ih, if_neg (by omega)]
      · rw [ih, if_neg (by omega)]

/-- What one write can do: a byte of the run reads as written, every other byte as before. -/
theorem read_write (unl : Option Byte) (m : Memory) (a : Nat) (bs : List Byte) (k : Nat) :
    Memory.read unl (Memory.write unl m a bs) k =
      if a ≤ k ∧ k < a + bs.length then bs[k - a]? else Memory.read unl m k := by
  have h1 := find_filter_addr (fun x => decide (x < a)) m k
  have h2 := find_filter_addr (fun x => decide (a + bs.length ≤ x)) m k
  have h3 := find_cells unl bs a k
  unfold Memory.read Memory.write
  rw [find_append, find_append, h1, h2, h3]
  by_cases hlo : a ≤ k <;> by_cases hhi : k < a + bs.length
  · have hk : k - a < bs.length := by omega
    simp only [hlo, hhi, Nat.not_lt.2 hlo, Nat.not_le.2 hhi, List.getElem?_eq_getElem hk]
    by_cases hu : some bs[k - a] = unl <;> simp [hu]
  · have hk : bs.length ≤ k - a := by omega
    simp [hlo, hhi, Nat.not_lt.2 hlo, Nat.not_lt.1 hhi, List.getElem?_eq_none hk]
  · simp [hlo, Nat.not_le.1 hlo, Nat.not_le.2 hhi]
  · omega

theorem cells_addr_ge {bs : List Byte} {a : Nat} {c : Host.Cell} (h : c ∈ Memory.cells a bs) :
    a ≤ c.1 ∧ c.1 < a + bs.length := by
  induction bs generalizing a with
  | nil => simp [Memory.cells] at h
  | cons b bs ih =>
    simp only [Memory.cells, List.mem_cons] at h
    rcases h with rfl | h
    · simp
    · have := ih h; simp only [List.length_cons]; omega

theorem cells_rising (a : Nat) (bs : List Byte) : (Memory.cells a bs).Pairwise (fun c d => c.1 < d.1) := by
  induction bs generalizing a with
  | nil => simp [Memory.cells]
  | cons b bs ih =>
    refine List.pairwise_cons.2 ⟨fun c hc => ?_, ih (a + 1)⟩
    have := cells_addr_ge hc
    show a < c.1
    omega

/-- A write inside the space keeps the canonical form. -/
theorem wf_write {unl : Option Byte} {size : Nat} {m : Memory} {a : Nat} {bs : List Byte}
    (h : Memory.wf unl size m) (hb : bs = [] ∨ a + bs.length ≤ size) :
    Memory.wf unl size (Memory.write unl m a bs) := by
  obtain ⟨hp, hc⟩ := h
  refine ⟨?_, ?_⟩
  · unfold Memory.write
    refine List.pairwise_append.2 ⟨List.pairwise_append.2 ⟨hp.filter _, (cells_rising a bs).filter _, ?_⟩, hp.filter _, ?_⟩
    · intro c h1 d h2
      have h1 := (List.mem_filter.1 h1).2
      have h2 := cells_addr_ge (List.mem_filter.1 h2).1
      simp only [decide_eq_true_eq] at h1
      omega
    · intro c h1 d h2
      have h2 := (List.mem_filter.1 h2).2
      simp only [decide_eq_true_eq] at h2
      rcases List.mem_append.1 h1 with h1 | h1
      · have h1 := (List.mem_filter.1 h1).2
        simp only [decide_eq_true_eq] at h1
        omega
      · have h1 := cells_addr_ge (List.mem_filter.1 h1).1
        omega
  · intro c hm
    unfold Memory.write at hm
    rcases List.mem_append.1 hm with hm | hm
    · rcases List.mem_append.1 hm with hm | hm
      · exact hc c (List.mem_filter.1 hm).1
      · have h1 := List.mem_filter.1 hm
        have h2 := cells_addr_ge h1.1
        refine ⟨?_, by simpa using h1.2⟩
        rcases hb with rfl | hb
        · simp [Memory.cells] at h1
        · omega
    · exact hc c (List.mem_filter.1 hm).1

/-- The empty memory is in canonical form. -/
theorem wf_nil (unl : Option Byte) (size : Nat) : Memory.wf unl size [] := by simp [Memory.wf]

end Sys2Proof.Machine
end

