-- ==== Sys2Proof/Laws/Ops.lean ====
section
/-! SUPPORT. What the named operations over slots and spaces can do, said once each: `memWrite`, `memRead`, `readRuns`,
`copyIn`, the extractions, `insert25`. -/

namespace Sys2Proof.Machine

section memWrite
variable (sp : Space) (a : Nat) (v : List Byte) (s : State)
@[simp] theorem memWrite_uplink : (memWrite sp a v s).uplink = s.uplink := by cases sp <;> rfl
@[simp] theorem memWrite_downlink : (memWrite sp a v s).downlink = s.downlink := by cases sp <;> rfl
@[simp] theorem memWrite_source : (memWrite sp a v s).source = s.source := by cases sp <;> rfl
@[simp] theorem memWrite_dest : (memWrite sp a v s).dest = s.dest := by cases sp <;> rfl
@[simp] theorem memWrite_payloadValid : (memWrite sp a v s).payloadValid = s.payloadValid := by cases sp <;> rfl
@[simp] theorem memWrite_result : (memWrite sp a v s).result = s.result := by cases sp <;> rfl
@[simp] theorem memWrite_frameLen : (memWrite sp a v s).frameLen = s.frameLen := by cases sp <;> rfl
@[simp] theorem memWrite_trace : (memWrite sp a v s).trace = s.trace := by cases sp <;> rfl
@[simp] theorem memWrite_pending : (memWrite sp a v s).pending = s.pending := by cases sp <;> rfl
@[simp] theorem memWrite_slot (sl : Slot) : (memWrite sp a v s).slot sl = s.slot sl := by cases sp <;> cases sl <;> rfl
@[simp] theorem memWrite_size (sp' : Space) : (memWrite sp a v s).size sp' = s.size sp' := by
  cases sp <;> cases sp' <;> rfl
@[simp] theorem memWrite_payload_frame : (memWrite .payload a v s).frame = s.frame := rfl
@[simp] theorem memWrite_payload_csin : (memWrite .payload a v s).csin = s.csin := rfl
@[simp] theorem memWrite_payload_csout : (memWrite .payload a v s).csout = s.csout := rfl
theorem memWrite_mem_ne (sp' : Space) (h : sp' ≠ sp) : (memWrite sp a v s).mem sp' = s.mem sp' :=
  setMem_mem_ne _ _ _ _ h
end memWrite

/-- Everything a write can do to a byte of any space: a byte of the written run that exists reads as written, every other
byte as before. -/
theorem byte_memWrite (sp sp' : Space) (a : Nat) (v : List Byte) (s : State) (k : Nat) :
    (memWrite sp a v s).byte sp' k =
      if sp' = sp ∧ a ≤ k ∧ k < a + v.length ∧ k < s.size sp then v[k - a]? else s.byte sp' k := by
  by_cases h : sp' = sp
  · subst h
    unfold State.byte memWrite
    rw [setMem_size, setMem_mem, read_write]
    by_cases hk : k < s.size sp' <;> simp [hk]
  · rw [if_neg (fun hh => h hh.1)]
    exact setMem_byte_ne _ _ _ _ h _

/-- A byte outside the written run reads as before. -/
theorem byte_memWrite_outside (sp sp' : Space) (a : Nat) (v : List Byte) (s : State) (k : Nat)
    (h : sp' ≠ sp ∨ k < a ∨ a + v.length ≤ k) : (memWrite sp a v s).byte sp' k = s.byte sp' k := by
  rw [byte_memWrite, if_neg]
  rintro ⟨h1, h2, h3, -⟩
  rcases h with h | h | h
  · exact h h1
  · omega
  · omega

/-- Every existing byte of the host's buffers has a value (log 12). -/
theorem byte_isSome_of_host {sp : Space} (h : sp ≠ .payload) {s : State} {a : Nat} (ha : a < s.size sp) :
    (s.byte sp a).isSome := by
  unfold State.byte
  rw [if_pos ha]
  unfold Memory.read
  cases Memory.find (s.mem sp) a with
  | some b => rfl
  | none => cases sp <;> simp_all [unlisted]

theorem readByte_eq_ok {sp : Space} {a : Nat} {s : State} {b : Byte} :
    readByte sp a s = .ok b ↔ s.byte sp a = some b := by
  unfold readByte
  cases s.byte sp a <;> simp

/-- `MemRead` of bytes that all have a value answers them in increasing index order. -/
theorem memRead_of_isSome {sp : Space} {a n : Nat} {s : State} (h : ∀ k < n, (s.byte sp (a + k)).isSome) :
    memRead sp a n s = .ok ((List.range n).map fun k => (s.byte sp (a + k)).getD 0) := by
  induction n generalizing a with
  | zero => rfl
  | succ n ih =>
    obtain ⟨b, hb⟩ := Option.isSome_iff_exists.1 (h 0 (by omega))
    have h0 : readByte sp a s = .ok b := readByte_eq_ok.2 (by simpa using hb)
    have h1 := ih (a := a + 1) (fun k hk => by have := h (k + 1) (by omega); rwa [show a + 1 + k = a + (k + 1) by omega])
    simp only [memRead, h0, h1, List.range_succ_eq_map, List.map_cons, List.map_map]
    congr 2
    · simp only [Nat.add_zero] at hb; simp [hb]
    · exact List.map_congr_left fun k _ => by simp [show a + 1 + k = a + (k + 1) by omega]

/-- What a successful `MemRead` can answer: `n` bytes, each the byte at its address. -/
theorem memRead_eq_ok {sp : Space} {a n : Nat} {s : State} {bs : List Byte} :
    memRead sp a n s = .ok bs ↔ bs.length = n ∧ ∀ k < n, s.byte sp (a + k) = bs[k]? := by
  induction n generalizing a bs with
  | zero => cases bs <;> simp [memRead]
  | succ n ih =>
    rw [memRead]
    cases hr : readByte sp a s with
    | error f =>
      simp only [reduceCtorEq, false_iff, not_and]
      intro hl hk
      have h0 := hk 0 (by omega)
      cases bs with
      | nil => simp at hl
      | cons b bs =>
        rw [readByte_eq_ok.2 (show s.byte sp a = some b by simpa using h0)] at hr
        cases hr
    | ok b =>
      rw [readByte_eq_ok] at hr
      cases bs with
      | nil =>
        cases hm : memRead sp (a + 1) n s <;> simp
      | cons c bs =>
        have hih := ih (a := a + 1) (bs := bs)
        have : (∀ k < n + 1, s.byte sp (a + k) = (c :: bs)[k]?) ↔
            b = c ∧ ∀ k < n, s.byte sp (a + 1 + k) = bs[k]? := by
          constructor
          · intro h
            refine ⟨?_, fun k hk => ?_⟩
            · have h0 := h 0 (by omega)
              simpa [hr] using h0
            · have := h (k + 1) (by omega)
              rwa [show a + (k + 1) = a + 1 + k by omega, List.getElem?_cons_succ] at this
          · rintro ⟨rfl, h⟩ k hk
            cases k with
            | zero => simpa using hr
            | succ k =>
              rw [show a + (k + 1) = a + 1 + k by omega, List.getElem?_cons_succ]
              exact h k (by omega)
        rw [this]
        cases hm : memRead sp (a + 1) n s with
        | error f =>
          simp only [reduceCtorEq, false_iff, not_and]
          intro hl _ hh
          have := hih.2 ⟨by simpa using hl, hh⟩
          rw [hm] at this; cases this
        | ok ds =>
          rw [hm] at hih
          simp only [Except.ok.injEq, List.cons.injEq, List.length_cons, Nat.add_right_cancel_iff]
          rw [Except.ok.injEq] at hih
          constructor
          · rintro ⟨rfl, h⟩; exact ⟨(hih.1 h).1, rfl, (hih.1 h).2⟩
          · rintro ⟨hl, rfl, h⟩; exact ⟨rfl, hih.2 ⟨hl, h⟩⟩

/-- What a sequence of runs of `w` bytes can answer has `w` bytes a run. -/
theorem readRuns_length {sp : Space} {w : Nat} {starts : List Nat} {s : State} {bs : List Byte}
    (h : readRuns sp w starts s = .ok bs) : bs.length = starts.length * w := by
  induction starts generalizing bs with
  | nil => cases h; simp
  | cons a as ih =>
    rw [readRuns] at h
    cases hm : memRead sp a w s with
    | error f => rw [hm] at h; cases h
    | ok b =>
      cases hr : readRuns sp w as s with
      | error f => rw [hm, hr] at h; cases h
      | ok cs =>
        rw [hm, hr] at h; cases h
        rw [List.length_append, (memRead_eq_ok.1 hm).1, ih hr, List.length_cons, Nat.succ_mul, Nat.add_comm]

/-- A sequence of runs whose bytes all have a value answers them, run after run. -/
theorem readRuns_of_isSome {sp : Space} {w : Nat} {starts : List Nat} {s : State}
    (h : ∀ a ∈ starts, ∀ k < w, (s.byte sp (a + k)).isSome) :
    readRuns sp w starts s =
      .ok (starts.flatMap fun a => (List.range w).map fun k => (s.byte sp (a + k)).getD 0) := by
  induction starts with
  | nil => rfl
  | cons a as ih =>
    rw [readRuns, memRead_of_isSome (h a (List.mem_cons_self ..)), ih (fun b hb => h b (List.mem_cons_of_mem _ hb))]
    rfl

/-- The five groups of a buffer, read run after run, are its channel (R114 to R116). -/
theorem groups_eq_channel (w off : Nat) (hw : 0 < w) (v : List Byte) :
    ((groupStarts off).flatMap fun a => (List.range w).map fun k => v.getD (a + k) 0) = channel w off v := by
  have key : ∀ n, ((List.range n).flatMap fun g => (List.range w).map fun k => v.getD (18 * g + off + k) 0)
      = (List.range (n * w)).map fun k => v.getD (18 * (k / w) + off + k % w) 0 := by
    intro n
    induction n with
    | zero => simp
    | succ n ih =>
      rw [List.range_succ, List.flatMap_append, ih, Nat.succ_mul, List.range_add, List.map_append, List.map_map]
      congr 1
      simp only [List.flatMap_cons, List.flatMap_nil, List.append_nil]
      refine List.map_congr_left fun k hk => ?_
      have hk := List.mem_range.1 hk
      simp only [Function.comp_apply]
      rw [Nat.add_comm (n * w) k, Nat.add_mul_div_right _ _ hw, Nat.add_mul_mod_self_right,
        Nat.div_eq_of_lt hk, Nat.mod_eq_of_lt hk, Nat.zero_add]
  have := key 5
  rw [channel, ← this]
  simp [groupStarts, List.range_succ]

theorem frameLongEnough_iff {p : Params} {s : State} :
    frameLongEnough p s = true ↔ p.payloadOff + 90 ≤ s.frameLen := by
  simp [frameLongEnough]

@[simp] theorem window_length (p : Params) (s : State) : (window p s).length = 90 := by simp [window]

/-- Byte `k` of the payload region, when the frame is long enough. -/
theorem window_getElem? {p : Params} {s : State} (h : frameLongEnough p s = true) {k : Nat} (hk : k < 90) :
    (window p s)[k]? = s.byte .frame (p.payloadOff + k) := by
  have h := frameLongEnough_iff.1 h
  have hs : (s.byte .frame (p.payloadOff + k)).isSome := byte_isSome_of_host (by simp) (by simp only [State.size]; omega)
  obtain ⟨b, hb⟩ := Option.isSome_iff_exists.1 hs
  simp only [window, List.getElem?_map, List.getElem?_range hk, Option.map_some, hb, Option.getD_some]

/-- The state after `CopyIn()` (R151). -/
def copiedIn (p : Params) (s : State) : State := { memWrite .payload 0 (window p s) s with payloadValid := true }

/-- `CopyIn()` of a frame that is long enough (R151). -/
theorem copyIn_eq {p : Params} {s : State} (h : frameLongEnough p s = true) : copyIn p s = .ok (copiedIn p s) := by
  have h' := frameLongEnough_iff.1 h
  have : readFramePayload p s = .ok (window p s) :=
    memRead_of_isSome fun k hk => byte_isSome_of_host (by simp) (by simp only [State.size]; omega)
  simp only [copyIn, this, copiedIn]

section copiedIn
variable (p : Params) (s : State)
@[simp] theorem copiedIn_uplink : (copiedIn p s).uplink = s.uplink := rfl
@[simp] theorem copiedIn_downlink : (copiedIn p s).downlink = s.downlink := rfl
@[simp] theorem copiedIn_source : (copiedIn p s).source = s.source := rfl
@[simp] theorem copiedIn_dest : (copiedIn p s).dest = s.dest := rfl
@[simp] theorem copiedIn_payloadValid : (copiedIn p s).payloadValid = true := rfl
@[simp] theorem copiedIn_result : (copiedIn p s).result = s.result := rfl
@[simp] theorem copiedIn_frame : (copiedIn p s).frame = s.frame := rfl
@[simp] theorem copiedIn_frameLen : (copiedIn p s).frameLen = s.frameLen := rfl
@[simp] theorem copiedIn_csin : (copiedIn p s).csin = s.csin := rfl
@[simp] theorem copiedIn_csout : (copiedIn p s).csout = s.csout := rfl
@[simp] theorem copiedIn_trace : (copiedIn p s).trace = s.trace := rfl
@[simp] theorem copiedIn_pending : (copiedIn p s).pending = s.pending := rfl
@[simp] theorem copiedIn_slot (sl : Slot) : (copiedIn p s).slot sl = s.slot sl := by cases sl <;> rfl
@[simp] theorem copiedIn_size (sp : Space) : (copiedIn p s).size sp = s.size sp := by cases sp <;> rfl
theorem copiedIn_byte_ne (sp : Space) (h : sp ≠ .payload) (a : Nat) : (copiedIn p s).byte sp a = s.byte sp a := by
  cases sp <;> first | rfl | exact absurd rfl h
/-- After the copy-in `PAYLOAD` is the payload region (R151, R159 `LOADED`). -/
theorem copiedIn_payload_byte (k : Nat) (hk : k < 90) : (copiedIn p s).byte .payload k = (window p s)[k]? := by
  have : (copiedIn p s).byte .payload k = (memWrite .payload 0 (window p s) s).byte .payload k := rfl
  rw [this, byte_memWrite, if_pos ⟨rfl, Nat.zero_le _, by simpa using hk, hk⟩, Nat.sub_zero]
end copiedIn

/-- The channel that five runs of `PAYLOAD` yield right after the copy-in (R114 to R116). -/
theorem readRuns_copiedIn (p : Params) (s : State) {w off : Nat} (hw : 0 < w) (ho : 72 + off + w ≤ 90) :
    readRuns .payload w (groupStarts off) (copiedIn p s) = .ok (channel w off (window p s)) := by
  have hlt : ∀ a ∈ groupStarts off, ∀ k < w, a + k < 90 := by
    intro a ha k hk
    simp only [groupStarts, List.mem_cons, List.not_mem_nil, or_false] at ha
    omega
  have hb : ∀ a ∈ groupStarts off, ∀ k < w, (copiedIn p s).byte .payload (a + k) = some ((window p s).getD (a + k) 0) := by
    intro a ha k hk
    have hlt := hlt a ha k hk
    rw [copiedIn_payload_byte _ _ _ hlt, List.getD_eq_getElem?_getD, List.getElem?_eq_getElem (by simpa using hlt)]
    rfl
  rw [readRuns_of_isSome (fun a ha k hk => by rw [hb a ha k hk]; rfl), ← groups_eq_channel w off hw]
  congr 1
  refine List.flatMap_congr fun a ha => List.map_congr_left fun k hk => ?_
  rw [hb a ha k (List.mem_range.1 hk)]
  rfl

theorem extract2x45_copiedIn (p : Params) (s : State) :
    extract2x45 (copiedIn p s) = .ok (channel 9 0 (window p s), channel 9 9 (window p s)) := by
  simp only [extract2x45, readRuns_copiedIn p s (w := 9) (off := 0) (by decide) (by decide),
    readRuns_copiedIn p s (w := 9) (off := 9) (by decide) (by decide)]

theorem extract45_copiedIn (p : Params) (s : State) : extract45 (copiedIn p s) = .ok (channel 9 0 (window p s)) := by
  simp only [extract45, readRuns_copiedIn p s (w := 9) (off := 0) (by decide) (by decide)]

theorem extract25_copiedIn (p : Params) (s : State) : extract25 (copiedIn p s) = .ok (channel 5 0 (window p s)) := by
  simp only [extract25, readRuns_copiedIn p s (w := 5) (off := 0) (by decide) (by decide)]

/-- `insert25` as its five writes, group 4 last. -/
theorem insert25_eq (d : List Byte) (s : State) :
    insert25 d s = memWrite .payload 72 ((d.drop 20).take 5) (memWrite .payload 54 ((d.drop 15).take 5)
      (memWrite .payload 36 ((d.drop 10).take 5) (memWrite .payload 18 ((d.drop 5).take 5)
        (memWrite .payload 0 ((d.drop 0).take 5) s)))) := rfl

section insert25
variable (d : List Byte) (s : State)
@[simp] theorem insert25_uplink : (insert25 d s).uplink = s.uplink := by simp only [insert25_eq, memWrite_uplink]
@[simp] theorem insert25_downlink : (insert25 d s).downlink = s.downlink := by simp only [insert25_eq, memWrite_downlink]
@[simp] theorem insert25_source : (insert25 d s).source = s.source := by simp only [insert25_eq, memWrite_source]
@[simp] theorem insert25_dest : (insert25 d s).dest = s.dest := by simp only [insert25_eq, memWrite_dest]
@[simp] theorem insert25_payloadValid : (insert25 d s).payloadValid = s.payloadValid := by simp only [insert25_eq, memWrite_payloadValid]
@[simp] theorem insert25_result : (insert25 d s).result = s.result := by simp only [insert25_eq, memWrite_result]
@[simp] theorem insert25_frame : (insert25 d s).frame = s.frame := by
  simp only [insert25_eq, memWrite_payload_frame]
@[simp] theorem insert25_frameLen : (insert25 d s).frameLen = s.frameLen := by simp only [insert25_eq, memWrite_frameLen]
@[simp] theorem insert25_csin : (insert25 d s).csin = s.csin := by
  simp only [insert25_eq, memWrite_payload_csin]
@[simp] theorem insert25_csout : (insert25 d s).csout = s.csout := by
  simp only [insert25_eq, memWrite_payload_csout]
@[simp] theorem insert25_trace : (insert25 d s).trace = s.trace := by simp only [insert25_eq, memWrite_trace]
@[simp] theorem insert25_pending : (insert25 d s).pending = s.pending := by simp only [insert25_eq, memWrite_pending]
@[simp] theorem insert25_slot (sl : Slot) : (insert25 d s).slot sl = s.slot sl := by
  simp only [insert25_eq, memWrite_slot]
@[simp] theorem insert25_size (sp : Space) : (insert25 d s).size sp = s.size sp := by
  simp only [insert25_eq, memWrite_size]
theorem insert25_byte_ne (sp : Space) (h : sp ≠ .payload) (a : Nat) : (insert25 d s).byte sp a = s.byte sp a := by
  simp only [insert25_eq, byte_memWrite_outside _ _ _ _ _ _ (Or.inl h)]
/-- Everything `Insert25` of 25 bytes does to `PAYLOAD` (R119). -/
theorem insert25_payload_byte (hd : d.length = 25) (k : Nat) :
    (insert25 d s).byte .payload k =
      if k < 90 ∧ k % 18 < 5 then d[5 * (k / 18) + k % 18]? else s.byte .payload k := by
  have hsz : ∀ t : State, t.size .payload = 90 := fun _ => rfl
  rw [insert25_eq]
  simp only [byte_memWrite, hsz, List.length_take, List.length_drop, hd, true_and, List.getElem?_take,
    List.getElem?_drop]
  by_cases hk : k < 90 ∧ k % 18 < 5
  · rw [if_pos hk]
    have h5 : k / 18 = 0 ∨ k / 18 = 1 ∨ k / 18 = 2 ∨ k / 18 = 3 ∨ k / 18 = 4 := by omega
    rcases h5 with h | h | h | h | h
    all_goals
      repeat first
        | rw [if_neg (by omega)]
        | rw [if_pos (by omega), if_pos (by omega)]
      congr 1; omega
  · rw [if_neg hk]
    rw [if_neg (by omega), if_neg (by omega), if_neg (by omega), if_neg (by omega), if_neg (by omega)]
end insert25

/-- `DECODE` of a frame that is long enough: the routine runs on the copied-in state (R150). -/
theorem decodeCommand_eq {p : Params} {r : Routine} {s : State} (h : frameLongEnough p s = true) {q : Bool × State}
    (hr : r (copiedIn p s) = .ok q) : decodeCommand p r s = .next (setResult q.1 q.2) := by
  simp only [decodeCommand, h, if_true, copyIn_eq h, hr]

/-- `DECODE` of a frame that is too short (R262). -/
theorem decodeCommand_short {p : Params} {r : Routine} {s : State} (h : frameLongEnough p s = false) :
    decodeCommand p r s = .refused .frameTooShort := by
  simp [decodeCommand, h]

end Sys2Proof.Machine
end

