-- ==== Sys2Proof/Laws/Datapath.lean ====
section
/-! SUPPORT. What the datapath primitives can do, said once each. -/

namespace Sys2Proof.Machine

/-! ## Bit access -/

@[simp] theorem setBit_length (B : List Byte) (i : Nat) (v : Bool) : (setBit B i v).length = B.length := by
  simp [setBit]

theorem bitMask_getLsbD (i k : Nat) (hk : k < 8) : (bitMask i).getLsbD k = decide (k = 7 - i % 8) := by
  have : i % 8 < 8 := Nat.mod_lt _ (by decide)
  unfold bitMask
  generalize i % 8 = r at *
  interval_cases k <;> interval_cases r <;> decide

/-- Everything `setBit` does to the bits of a buffer (R111). -/
theorem getBit_setBit {B : List Byte} {i : Nat} (v : Bool) (hi : i < 8 * B.length) (j : Nat) :
    getBit (setBit B i v) j = if j = i then v else getBit B j := by
  have hi8 : i / 8 < B.length := by omega
  unfold getBit setBit
  by_cases hq : j / 8 = i / 8
  · rw [hq]
    have h7 : 7 - j % 8 < 8 := by omega
    simp only [List.getD_eq_getElem?_getD, List.getElem?_set_self hi8, List.getElem?_eq_getElem hi8, Option.getD_some]
    have hm := bitMask_getLsbD i (7 - j % 8) h7
    have hff : (0xFF#8 : Byte).getLsbD (7 - j % 8) = true := by
      generalize 7 - j % 8 = k at h7; interval_cases k <;> decide
    by_cases hj : j = i
    · subst hj
      cases v <;> simp [hm, hff]
    · have hne : ¬ (7 - j % 8 = 7 - i % 8) := by omega
      rw [decide_eq_false hne] at hm
      rw [if_neg hj]
      cases v
      · simp only [Bool.false_eq_true, if_false, BitVec.getLsbD_and, BitVec.getLsbD_xor, hm, hff, Bool.xor_false,
          Bool.and_true]
      · simp only [if_true, BitVec.getLsbD_or, hm, Bool.or_false]
  · have hj : j ≠ i := by rintro rfl; exact hq rfl
    rw [if_neg hj]
    simp only [List.getD_eq_getElem?_getD, List.getElem?_set_ne (Ne.symm hq)]

/-- Bit `j` of a packed byte, most significant first (R8). -/
theorem byteOfBits_getLsbD (f : Nat → Bool) (j : Nat) (hj : j < 8) : (byteOfBits f).getLsbD (7 - j) = f j := by
  unfold byteOfBits
  rw [BitVec.getLsbD_ofFnLE]
  rw [dif_pos (show 7 - j < 8 by omega)]
  show f (7 - (7 - j)) = f j
  congr 1; omega

@[simp] theorem packBits_length (n : Nat) (f : Nat → Bool) : (packBits n f).length = n := by simp [packBits]

/-- Bit `j` of a packed buffer (R128). -/
theorem getBit_packBits (n : Nat) (f : Nat → Bool) (j : Nat) (hj : j < 8 * n) : getBit (packBits n f) j = f j := by
  have h : j / 8 < n := by omega
  unfold getBit packBits
  rw [List.getD_eq_getElem?_getD, List.getElem?_map, List.getElem?_range h]
  show (byteOfBits fun i => f (8 * (j / 8) + i)).getLsbD (7 - j % 8) = f j
  rw [byteOfBits_getLsbD _ _ (Nat.mod_lt _ (by decide))]
  congr 1; omega

/-- Two bytes with the same bits are the same byte. -/
theorem byte_eq_of_bits {x y : Byte} (h : ∀ j < 8, x.getLsbD (7 - j) = y.getLsbD (7 - j)) : x = y := by
  apply BitVec.eq_of_getLsbD_eq
  intro i hi
  have := h (7 - i) (by omega)
  rwa [show 7 - (7 - i) = i by omega] at this

/-- Two buffers of one length with the same bits are the same buffer. -/
theorem buffer_eq_of_getBit {A B : List Byte} (hl : A.length = B.length)
    (h : ∀ j < 8 * A.length, getBit A j = getBit B j) : A = B := by
  apply List.ext_getElem hl
  intro k h1 h2
  apply byte_eq_of_bits
  intro j hj
  have := h (8 * k + j) (by omega)
  unfold getBit at this
  rwa [show (8 * k + j) / 8 = k by omega, show (8 * k + j) % 8 = j by omega, List.getD_eq_getElem _ _ h1,
    List.getD_eq_getElem _ _ h2] at this

/-! ## The permutation engine -/

@[simp] theorem deinterleave_length {m : Nat} (T : Table m) (d : List Byte) : (deinterleave T d).length = 4 * m := by
  simp [deinterleave]

@[simp] theorem putPair_length {m : Nat} (T : Table m) (cb : List Bool) (d : List Byte) (i : Nat) :
    (putPair T cb d i).length = d.length := by simp [putPair]

theorem foldl_putPair_length {m : Nat} (T : Table m) (cb : List Bool) (is : List Nat) (d : List Byte) :
    (is.foldl (putPair T cb) d).length = d.length := by
  induction is generalizing d with
  | nil => rfl
  | cons i is ih => rw [List.foldl_cons, ih, putPair_length]

@[simp] theorem interleave_length {m : Nat} (T : Table m) (cb : List Bool) : (interleave T cb).length = m := by
  rw [interleave, foldl_putPair_length, List.length_replicate]

/-- One round of the re-interleave loop writes the two bits of its pair and no other. -/
theorem getBit_putPair {m : Nat} (T : Table m) (cb : List Bool) {d : List Byte} (hd : d.length = m) {i : Nat}
    (hi : i < 4 * m) (j : Nat) :
    getBit (putPair T cb d i) j =
      if j = T.entry i + 1 then cb.getD (2 * i + 1) false
      else if j = T.entry i then cb.getD (2 * i) false else getBit d j := by
  have h := T.inRange i hi
  rw [putPair, getBit_setBit _ (by simp only [setBit_length, hd]; omega), getBit_setBit _ (by rw [hd]; omega)]

/-- Coded bit `2i + b` stands at channel bit `T[i] + b` of a re-interleaved buffer (R113, R118). -/
theorem getBit_interleave {m : Nat} (T : Table m) (cb : List Bool) {i : Nat} (hi : i < 4 * m) {b : Nat} (hb : b < 2) :
    getBit (interleave T cb) (T.entry i + b) = cb.getD (2 * i + b) false := by
  have key : ∀ n ≤ 4 * m, i < n →
      getBit ((List.range n).foldl (putPair T cb) (List.replicate m 0)) (T.entry i + b) = cb.getD (2 * i + b) false := by
    intro n
    induction n with
    | zero => intro _ h; omega
    | succ n ih =>
      intro hn hin
      rw [List.range_succ, List.foldl_append, List.foldl_cons, List.foldl_nil,
        getBit_putPair T cb (by rw [foldl_putPair_length, List.length_replicate]) (by omega)]
      by_cases he : i = n
      · subst he
        rcases (show b = 0 ∨ b = 1 by omega) with rfl | rfl <;> simp
      · have h1 : T.entry i + b ≠ T.entry n + 1 := fun hh => he (T.distinct i hi n (by omega) b hb 1 (by omega) hh).1
        have h0 : T.entry i + b ≠ T.entry n := fun hh => he (T.distinct i hi n (by omega) b hb 0 (by omega) (by simpa using hh)).1
        rw [if_neg h1, if_neg h0]
        exact ih (by omega) (by omega)
  exact key (4 * m) (le_refl _) hi

@[simp] theorem pairsOf_length (cb : List Bool) : (pairsOf cb).length = cb.length / 2 := by simp [pairsOf]

/-! ## The whitener -/

@[simp] theorem whiten_length (p : Params) (B : List Byte) (n : Nat) : (whiten p B n).length = n := by simp [whiten]

/-- Byte `j` of a whitened block (R124). -/
theorem whiten_getElem? (p : Params) (B : List Byte) {n j : Nat} (hj : j < n) :
    (whiten p B n)[j]? = some (B.getD j 0 ^^^ maskByte p j) := by
  simp [whiten, List.getElem?_range hj]

/-! ## The collaborators' contracts -/

@[simp] theorem convDecode_length (p : Params) (ps : List (Bool × Bool)) (n : Nat) :
    (convDecode p ps n).length = n / 8 := by simp [convDecode]

@[simp] theorem inputBits_length (B : List Byte) (n : Nat) : (inputBits B n).length = n := by simp [inputBits]

@[simp] theorem convEncode_length (p : Params) (B : List Byte) (n : Nat) : (convEncode p B n).length = 2 * n := by
  simp [convEncode]

@[simp] theorem crcAdd_length (p : Params) (B : List Byte) (n : Nat) : (crcAdd p B n).length = B.length := by
  simp [crcAdd]

/-- What a true `CrcCheck` says (R132). -/
theorem crcCheck_eq_true {p : Params} {B : List Byte} {n : Nat} :
    crcCheck p B n = true ↔ (B.getD n 0, B.getD (n + 1) 0) = p.crc (B.take n) := by simp [crcCheck]

/-- The information bytes are not changed by `CrcAdd` (R133). -/
theorem crcAdd_take (p : Params) (B : List Byte) (n : Nat) : (crcAdd p B n).take n = B.take n := by
  rw [crcAdd, List.take_set_of_le (by omega), List.take_set_of_le (le_refl n)]

/-! ## The shared block decoder -/

@[simp] theorem channel_length (w off : Nat) (v : List Byte) : (channel w off v).length = 5 * w := by simp [channel]

@[simp] theorem decodedBlock20_length (p : Params) (d : List Byte) : (decodedBlock20 p d).length = 22 := by
  simp [decodedBlock20]

@[simp] theorem decodedBlock10_length (p : Params) (d : List Byte) : (decodedBlock10 p d).length = 13 := by
  simp [decodedBlock10]

/-- All that `DecodeBlock20` does: append its event, if any, to the trace (R137). -/
theorem decodeBlock20_eq (p : Params) (d : List Byte) (tag : TraceTag) (s : State) :
    decodeBlock20 p d tag s = { s with trace := s.trace ++ blockTrace p tag d } := by
  unfold decodeBlock20 blockTrace
  by_cases h : crcCheck p (decodedBlock20 p d) 20 = true <;> cases ht : p.traceEn <;> simp [h, ht, emitTrace]

@[simp] theorem reencode_length (p : Params) (W : List Byte) : (reencode p W).length = 25 := by simp [reencode]

@[simp] theorem ofFn_bytes (f : Nat → Byte) : (Callsign.ofFn f).bytes = (List.range 10).map f := rfl

/-- A 10-byte block stored as a callsign keeps its bytes (R205, D26). -/
theorem callsignOf_bytes {P : List Byte} (h : P.length = 10) : (callsignOf P).bytes = P := by
  apply List.ext_getElem (by simp [callsignOf, h])
  intro j h1 h2
  simp [callsignOf, List.getElem?_eq_getElem h2]

/-- Two callsigns with the same bytes are the same callsign. -/
theorem Callsign.ext_bytes {c d : Callsign} (h : c.bytes = d.bytes) : c = d := by
  cases c; cases d; simp_all

end Sys2Proof.Machine
end

