-- ==== Sys2Proof/Laws/Slots.lean ====
section
/-! SUPPORT. What the slot operations of V/D Mode 2 and of the callsign commands can do. -/

namespace Sys2Proof.Machine

/-- A store never empties a mailbox (R205, R299). -/
theorem mailboxStore_isSome (pol : MailboxPolicy) (old : Option Callsign) (c : Callsign) :
    (mailboxStore pol old c).isSome := by
  cases old <;> cases pol <;> rfl

/-- All that the `fn` arm of a CRC-validated block does: at most one mailbox is written (R204 to R206, R218). -/
theorem storePlaintext_eq (p : Params) (fn : BitVec 3) (P : List Byte) (s : State) :
    storePlaintext p fn P s =
      { s with
        dest := if fn = 0 then mailboxStore p.mailboxPolicy s.dest (callsignOf P) else s.dest
        source := if fn = 1 then mailboxStore p.mailboxPolicy s.source (callsignOf P) else s.source } := by
  unfold storePlaintext storeSlot
  by_cases h0 : fn = 0
  · subst h0; simp [State.setSlot, State.slot]
  · by_cases h1 : fn = 1
    · subst h1; simp [State.setSlot, State.slot]
    · rw [if_neg h0, if_neg h1]
      simp only [if_neg h0, if_neg h1]

/-- The substitute by `fn` (R207, R208). -/
theorem substitute_eq (fn : BitVec 3) (s : State) :
    substitute fn s = if fn = 2 then s.downlink else if fn = 3 then s.uplink else none := by
  unfold substitute repairSlot
  by_cases h2 : fn = 2
  · simp [h2, State.slot]
  · by_cases h3 : fn = 3
    · simp [h3, State.slot]
    · simp only [if_neg h2, if_neg h3]

/-- The repair reads a slot that the store does not write (R219, R220). -/
theorem substitute_congr {fn : BitVec 3} {s t : State} (h1 : t.uplink = s.uplink) (h2 : t.downlink = s.downlink) :
    substitute fn t = substitute fn s := by
  rw [substitute_eq, substitute_eq, h1, h2]

/-- The state of V/D Mode 2 after the store and the trace (R204 to R206). -/
def vd2Stored (p : Params) (fn : BitVec 3) (dch : List Byte) (s : State) : State :=
  let out := decodedBlock10 p dch
  if crcCheck p out 10 then
    storePlaintext p fn (whiten p (out.take 10) 10) (emitTrace p (.vd2 fn) (whiten p (out.take 10) 10) s)
  else s

/-- V/D Mode 2 from the extracted channel on: the write-back of the valid block, if there is one, else nothing
(R200, R209). -/
theorem decodeVD2Channel_eq (p : Params) (fn : BitVec 3) (dch : List Byte) (s : State) :
    decodeVD2Channel p fn dch s =
      match validBlock p (substitute fn s) (crcCheck p (decodedBlock10 p dch) 10) ((decodedBlock10 p dch).take 10) with
      | some W => (true, insert25 (reencode p W) (vd2Stored p fn dch s))
      | none => (false, vd2Stored p fn dch s) := by
  have hsub : substitute fn (vd2Stored p fn dch s) = substitute fn s := by
    apply substitute_congr <;> unfold vd2Stored <;> dsimp only <;> split <;> simp [storePlaintext_eq]
  rw [← hsub]
  rfl

/-- The string operand is always there (R53, R85). -/
theorem readString_eq (len : BitVec 4) (s : State) :
    readString len s = .ok ((List.range (stringLen len)).map fun k => (s.byte .csin (0 + k)).getD 0) := by
  refine memRead_of_isSome fun k hk => byte_isSome_of_host (by simp) ?_
  have : stringLen len ≤ 10 := Nat.min_le_right _ _
  show 0 + k < 10
  omega

/-- `GET_*` of an empty mailbox (R243, R244). -/
theorem takeMailbox_none {sl : Slot} {s : State} (h : s.slot sl = none) : takeMailbox sl s = setResult false s := by
  simp [takeMailbox, h]

/-- `GET_*` of a full mailbox (R243, R244). -/
theorem takeMailbox_some {sl : Slot} {s : State} {c : Callsign} (h : s.slot sl = some c) :
    takeMailbox sl s = setResult true ((writeCsout c s).setSlot sl none) := by
  simp [takeMailbox, h]

end Sys2Proof.Machine
end

