-- ==== Sys2Proof/Laws/Commands.lean ====
section
/-! SUPPORT. What the bodies of the commands can do, said once each: the copy-out of `ENCODE`, the `SET` and `GET` bodies,
V/D Mode 2 after its copy-in; and that every write keeps the canonical form. -/

namespace Sys2Proof.Machine

/-! ## Reading a space depends on that space alone -/

theorem byte_payload_congr {s t : State} (h : t.payload = s.payload) (k : Nat) :
    t.byte .payload k = s.byte .payload k := by
  unfold State.byte; rw [show t.mem .payload = s.mem .payload from h]; rfl

theorem byte_frame_congr {s t : State} (h : t.frame = s.frame) (hl : t.frameLen = s.frameLen) (k : Nat) :
    t.byte .frame k = s.byte .frame k := by
  unfold State.byte
  rw [show t.mem .frame = s.mem .frame from h, show t.size .frame = s.size .frame from hl]

theorem byte_csin_congr {s t : State} (h : t.csin = s.csin) (k : Nat) : t.byte .csin k = s.byte .csin k := by
  unfold State.byte; rw [show t.mem .csin = s.mem .csin from h]; rfl

theorem byte_csout_congr {s t : State} (h : t.csout = s.csout) (k : Nat) : t.byte .csout k = s.byte .csout k := by
  unfold State.byte; rw [show t.mem .csout = s.mem .csout from h]; rfl

/-! ## The canonical form -/

/-- A write inside its space keeps every space in canonical form (R50, R61). -/
theorem memWrite_wf {sp sp' : Space} {a : Nat} {v : List Byte} {s : State}
    (h : Memory.wf (unlisted sp') (s.size sp') (s.mem sp')) (hb : v = [] ∨ a + v.length ≤ s.size sp) :
    Memory.wf (unlisted sp') ((memWrite sp a v s).size sp') ((memWrite sp a v s).mem sp') := by
  rw [memWrite_size]
  by_cases e : sp' = sp
  · subst e
    rw [show (memWrite sp' a v s).mem sp' = Memory.write (unlisted sp') (s.mem sp') a v by cases sp' <;> rfl]
    exact wf_write h hb
  · rw [memWrite_mem_ne _ _ _ _ _ e]; exact h

/-- Placing a frame leaves `FRAME` in canonical form (R52). -/
theorem placed_frame_wf (bytes : List Byte) :
    Memory.wf (unlisted .frame) bytes.length (Memory.write (unlisted .frame) [] 0 bytes) :=
  wf_write (wf_nil _ _) (.inr (by simp))

/-- Every space is in canonical form right after reset (R35), whatever the parameters. -/
theorem resetWith_memory_wf (p : Params) (sp : Space) :
    Memory.wf (unlisted sp) ((State.resetWith p).size sp) ((State.resetWith p).mem sp) := by
  cases sp <;> exact wf_nil _ _

/-- Every space of the machine is in canonical form right after reset (R35). -/
theorem reset_memory_wf (sp : Space) : Memory.wf (unlisted sp) (State.reset.size sp) (State.reset.mem sp) :=
  resetWith_memory_wf params sp

/-! ## The bodies of the commands -/

/-- All that a completing `ENCODE` does (R157). -/
theorem encodeCommand_inv {p : Params} {s t : State} (h : encodeCommand p s = .next t) :
    s.payloadValid = true ∧ frameLongEnough p s = true ∧
      ∃ v, v.length = 90 ∧ (∀ k < 90, s.byte .payload k = v[k]?) ∧ t = memWrite .frame p.payloadOff v s := by
  unfold encodeCommand at h
  split at h
  · split at h
    · cases hm : memRead .payload 0 90 s with
      | error f => rw [hm] at h; cases h
      | ok v =>
        rw [hm] at h
        obtain ⟨h1, h2⟩ := memRead_eq_ok.1 hm
        refine ⟨‹_›, ‹_›, v, h1, by simpa using h2, ?_⟩
        cases h; rfl
    · cases h
  · cases h

/-- When `ENCODE` completes (R157, R158). -/
theorem encodeCommand_next {p : Params} {s : State} (hv : s.payloadValid = true) (hl : frameLongEnough p s = true)
    (hb : ∀ k < 90, (s.byte .payload k).isSome) :
    encodeCommand p s = .next
      (writeFramePayload p ((List.range 90).map fun k => (s.byte .payload (0 + k)).getD 0) s) := by
  unfold encodeCommand
  rw [if_pos hv, if_pos hl, memRead_of_isSome (by simpa using hb)]

/-- A `SET` always completes and writes its slot alone (R240, R241). -/
theorem setCallsign_next (p : Params) (sl : Slot) (len : BitVec 4) (s : State) :
    setCallsign p sl len s = .next (s.setSlot sl (some (pad10 p (csinBytes s) len))) := by
  unfold setCallsign
  rw [readString_eq]
  dsimp only
  congr 3
  apply Callsign.ext_bytes
  simp only [pad10, ofFn_bytes]
  refine List.map_congr_left fun j hj => ?_
  have hj := List.mem_range.1 hj
  by_cases h : j < stringLen len
  · rw [if_pos h, if_pos h]; simp [csinBytes, h, hj]
  · rw [if_neg h, if_neg h]

/-- What `CSOUT` holds after a `GET` of a full mailbox (R243, R244). -/
theorem writeCsout_byte (c : Callsign) (s : State) {j : Nat} (hj : j < 10) :
    (writeCsout c s).byte .csout j = c.bytes[j]? := by
  rw [writeCsout, byte_memWrite, if_pos ⟨rfl, Nat.zero_le _, by rw [c.size_eq]; omega, hj⟩, Nat.sub_zero]

/-- `Insert25` writes `PAYLOAD` alone (R119). -/
theorem insert25_record (d : List Byte) (s : State) :
    insert25 d s = { s with payload := (insert25 d s).payload } :=
  State.ext_fields (by simp) (by simp) (by simp) (by simp) rfl (by simp) (by simp) (by simp) (by simp) (by simp)
    (by simp) (by simp) (by simp)

/-- The copied-in payload is the payload region of the frame (R151). -/
theorem copiedIn_loaded {p : Params} {s : State} (h : frameLongEnough p s = true) {k : Nat} (hk : k < 90) :
    (copiedIn p s).byte .payload k = s.byte .frame (p.payloadOff + k) := by
  rw [copiedIn_payload_byte _ _ _ hk, window_getElem? h hk]

/-- V/D Mode 2 after the copy-in, the store and the trace (R204 to R206, R218). -/
theorem vd2Stored_eq (p : Params) (fn : BitVec 3) (s : State) :
    vd2Stored p fn (channel 5 0 (window p s)) (copiedIn p s) =
      { copiedIn p s with
        dest := if fn = 0 ∧ vd2Crc p s = true then mailboxStore p.mailboxPolicy s.dest (vd2Callsign p s) else s.dest
        source :=
          if fn = 1 ∧ vd2Crc p s = true then mailboxStore p.mailboxPolicy s.source (vd2Callsign p s) else s.source
        trace := s.trace ++
          (if vd2Crc p s && p.traceEn then [⟨.vd2 fn, whiten p (vd2Info p s) 10⟩] else []) } := by
  have e : crcCheck p (decodedBlock10 p (channel 5 0 (window p s))) 10 = vd2Crc p s := rfl
  unfold vd2Stored
  dsimp only
  rw [e]
  cases h : vd2Crc p s
  · simp only [if_false, Bool.false_eq_true, and_false, Bool.false_and, List.append_nil]
    rfl
  · simp only [if_true, and_true, Bool.true_and, storePlaintext_eq, emitTrace_dest, emitTrace_source, copiedIn_dest,
      copiedIn_source]
    rfl

/-! ## The mode routines after the copy-in -/

/-- Header/Trailer and Data Full-Rate after the copy-in (R170, R171). -/
theorem decodeTwoHalves_copiedIn (p : Params) (tag1 tag2 : TraceTag) (s : State) :
    decodeTwoHalves p tag1 tag2 (copiedIn p s) = .ok (true, { copiedIn p s with
      trace := s.trace ++ (blockTrace p tag1 (channel 9 0 (window p s)) ++
        blockTrace p tag2 (channel 9 9 (window p s))) }) := by
  simp only [decodeTwoHalves, extract2x45_copiedIn, decodeBlock20_eq, copiedIn_trace, List.append_assoc]

/-- V/D Mode 1 after the copy-in (R190). -/
theorem decodeVD1_copiedIn (p : Params) (s : State) :
    decodeVD1 p (copiedIn p s) = .ok (true, { copiedIn p s with
      trace := s.trace ++ blockTrace p .vd1 (channel 9 0 (window p s)) }) := by
  simp only [decodeVD1, extract45_copiedIn, decodeBlock20_eq, copiedIn_trace]

/-- V/D Mode 2 after the copy-in (R200). -/
theorem decodeVD2_copiedIn (p : Params) (fn : BitVec 3) (s : State) :
    decodeVD2 p fn (copiedIn p s) = .ok (decodeVD2Channel p fn (channel 5 0 (window p s)) (copiedIn p s)) := by
  simp only [decodeVD2, extract25_copiedIn]

end Sys2Proof.Machine
end

