-- ==== Sys2Proof/Laws/Collaborators.lean ====
section
/-! SUPPORT. The `STUB` collaborators of R131 have the properties a claim may assume (R130). -/

namespace Sys2Proof.Machine

/-- `STUB` has `ConvRoundTrip` (R130, R131). -/
theorem stub_convRoundTrip : ConvRoundTrip stubParams := by
  intro n hn B hB ht
  unfold convDecode
  have h8 : 8 * (n / 8) = n := by rcases hn with rfl | rfl <;> rfl
  apply buffer_eq_of_getBit (by simp)
  intro j hj
  simp only [packBits_length] at hj
  rw [getBit_packBits _ _ _ hj, getBit_packBits _ _ _ hj]
  show stubDecodeBit _ n j = _
  unfold stubDecodeBit pairsOf
  have hj' : j < n + 4 := by omega
  have : 2 * j < 2 * (n + 4) := by omega
  simp [convEncode, hj', this, stubParams, stubEncodeBit, inputBits]

end Sys2Proof.Machine
end

