-- ==== Sys2Proof/Laws/HostEvents.lean ====
section
/-! SUPPORT. What one step over the host events can do, said once for every decoder and every meaning of the commands. -/

namespace Sys2Proof.Machine

/-- All that a step which answers a next state can have done: nothing when the host had nothing to do, else the host's next
event, taken off the list (R28, R63, R275, R294). -/
theorem performNext_inv {dec : Word → Except DecodeError Instr} {run : Instr → State → Host.Outcome State Fault Refusal}
    {s t : State} (h : performNext dec run s = .next t) :
    (s.pending = [] ∧ t = s) ∨
    ∃ ev rest, s.pending = ev :: rest ∧
      ((∃ w i, ev = .command w ∧ dec w = .ok i ∧ run i { s with pending := rest } = .next t) ∨
       (∃ bytes, ev = .placeFrame bytes ∧ t = hostPlaceFrame bytes { s with pending := rest }) ∨
       (∃ sp addr bytes, (ev = .writeFrame addr bytes ∧ sp = .frame ∨ ev = .writeCsin addr bytes ∧ sp = .csin) ∧
         addr + bytes.length ≤ s.size sp ∧ t = memWrite sp addr bytes { s with pending := rest }) ∨
       (ev = .reset ∧ t = resetEngine { s with pending := rest })) := by
  cases hp : s.pending with
  | nil =>
    unfold performNext fetch at h
    rw [hp] at h
    cases h; exact .inl ⟨rfl, rfl⟩
  | cons ev rest =>
    refine .inr ⟨ev, rest, rfl, ?_⟩
    have hf : fetch s = some (ev, { s with pending := rest }) := by unfold fetch; rw [hp]
    unfold performNext at h
    rw [hf] at h
    cases ev with
    | command w =>
      dsimp only at h
      cases hd : dec w with
      | error e => rw [hd] at h; cases h
      | ok i => rw [hd] at h; exact .inl ⟨w, i, rfl, hd, h⟩
    | placeFrame bytes => cases h; exact .inr (.inl ⟨bytes, rfl, rfl⟩)
    | writeFrame addr bytes =>
      simp only [hostWrite] at h
      split at h
      · cases h; exact .inr (.inr (.inl ⟨.frame, addr, bytes, .inl ⟨rfl, rfl⟩, ‹_›, rfl⟩))
      · cases h
    | writeCsin addr bytes =>
      simp only [hostWrite] at h
      split at h
      · cases h; exact .inr (.inr (.inl ⟨.csin, addr, bytes, .inr ⟨rfl, rfl⟩, ‹_›, rfl⟩))
      · cases h
    | reset => cases h; exact .inr (.inr (.inr ⟨rfl, rfl⟩))
    | concurrent => cases h

end Sys2Proof.Machine
end

