-- ==== Sys2Proof/Laws/PerInstr.lean ====
section
/-! SUPPORT. Statements about every instruction as syntax, one lemma per constructor. -/

namespace Sys2Proof.Laws.EncodingRow

-- one lemma at a time (see Tests/Slice0.lean)
set_option Elab.async false

/-- The word of a well-formed command selects the row of its mnemonic and no other row of the opcode table (R90). -/
def Statement (i : Instr) : Prop :=
  i.wellFormed = true → ∀ r ∈ opcodeRows, r.selects (encode i) = true ↔ r.mnemonic = i.mnemonic

theorem decodeHT : ∀ fi fn ft dt, Statement (.decodeHT fi fn ft dt) := by unfold Statement; decide +kernel

theorem decodeVD1 : ∀ fi fn ft, Statement (.decodeVD1 fi fn ft) := by unfold Statement; decide +kernel

theorem decodeDFR : ∀ fi fn ft, Statement (.decodeDFR fi fn ft) := by unfold Statement; decide +kernel

theorem decodeVD2 : ∀ fi fn ft, Statement (.decodeVD2 fi fn ft) := by unfold Statement; decide +kernel

theorem decodeVFR : ∀ fi fn ft, Statement (.decodeVFR fi fn ft) := by unfold Statement; decide +kernel

theorem encode : Statement .encode := by unfold Statement; decide +kernel

theorem setUplink : ∀ len, Statement (.setUplink len) := by unfold Statement; decide +kernel

theorem setDownlink : ∀ len, Statement (.setDownlink len) := by unfold Statement; decide +kernel

theorem getSource : Statement .getSource := by unfold Statement; decide +kernel

theorem getDest : Statement .getDest := by unfold Statement; decide +kernel

end Sys2Proof.Laws.EncodingRow
end

