-- ==== Sys2Proof/Tests/Slice0.lean ====
section
/-! SUPPORT. Tests against the vectors of spec/95_test_vectors.md (V1 to V50) and the spec's own small numbers, the
smoke tests of the checks, and for every statement with hypotheses a state and operands that meet them. -/

namespace Sys2Proof.Tests

open Sys2Proof Sys2Proof.Machine

-- one theorem at a time: the kernel evaluations below would otherwise wait for each other in many threads
set_option Elab.async false

/-! ## Small states -/

/-- `TESTCALL` as 10 bytes, padded (R241's example). -/
def testcall : Callsign := ⟨[0x54, 0x45, 0x53, 0x54, 0x43, 0x41, 0x4C, 0x4C, 0x20, 0x20], rfl⟩

/-- `W1AW` as 10 bytes, padded (R240's example). -/
def w1aw : Callsign := ⟨[0x57, 0x31, 0x41, 0x57, 0x20, 0x20, 0x20, 0x20, 0x20, 0x20], rfl⟩

/-- After reset, a frame of `n` zero bytes. -/
def zeroFrame (n : Nat) : State := { State.reset with frameLen := n }

/-- All four slots full, a loaded payload of bytes 0x41. -/
def fullState : State :=
  { State.reset with
    uplink := some testcall, downlink := some testcall, source := some w1aw, dest := some w1aw
    payload := Memory.cells 0 (List.replicate 90 0x41), payloadValid := true }

/-- `PAYLOAD[k] = k` (the start buffer of V4 to V7). -/
def countingPayload : State :=
  { State.reset with payload := Memory.cells 0 ((List.range 90).map (BitVec.ofNat 8)), payloadValid := true }

/-- Collaborators that decode and encode everything to zero bits and always store the CRC bytes `c`. -/
def fixedParams (c : Byte × Byte) (policy : MailboxPolicy) : Params :=
  { params with
    convDecodeBit := fun _ _ _ => false, convEncodeBit := fun _ _ => false, crc := fun _ => c
    mailboxPolicy := policy, traceEn := true }

/-! ## Well-formedness: each check refuses an ill-formed command (R83) -/

theorem test_wf_ht : (Instr.decodeHT 1 0 0 0).wellFormed = false := by decide
theorem test_wf_vd1 : (Instr.decodeVD1 0 0 0).wellFormed = false := by decide
theorem test_wf_dfr : (Instr.decodeDFR 2 0 0).wellFormed = false := by decide
theorem test_wf_vd2 : (Instr.decodeVD2 0 2 7).wellFormed = false := by decide
theorem test_wf_vfr : (Instr.decodeVFR 2 0 0).wellFormed = false := by decide

/-! ## Decoding: words written out bit by bit from R87 to R90; V50 -/

theorem test_decode_ht : decode 0b0001_10_111_111_11_00 = .ok (.decodeHT 2 7 7 3) := by decide
theorem test_decode_ht_ignores_dt : decode 0b0001_00_011_001_10_00 = .ok (.decodeHT 0 3 1 2) := by decide
theorem test_decode_vd1 : decode 0b0001_01_000_000_00_00 = .ok (.decodeVD1 1 0 0) := by decide
theorem test_decode_dfr : decode 0b0001_01_000_000_01_00 = .ok (.decodeDFR 1 0 0) := by decide
theorem test_decode_vd2 : decode 0b0001_01_010_111_10_00 = .ok (.decodeVD2 1 2 7) := by decide
theorem test_decode_vd2_fi3 : decode 0b0001_11_000_000_10_00 = .ok (.decodeVD2 3 0 0) := by decide
theorem test_decode_vfr : decode 0b0001_01_101_111_11_00 = .ok (.decodeVFR 1 5 7) := by decide
theorem test_decode_encode : decode 0b0010_0000_0000_0000 = .ok .encode := by decide
theorem test_decode_setUplink : decode 0b0011_0000_0000_0100 = .ok (.setUplink 4) := by decide
theorem test_decode_setDownlink : decode 0b0100_0000_0000_1111 = .ok (.setDownlink 15) := by decide
theorem test_decode_getSource : decode 0b0101_0000_0000_0000 = .ok .getSource := by decide
theorem test_decode_getDest : decode 0b0110_0000_0000_0000 = .ok .getDest := by decide

/-- V50: the reserved words, at both ends of the reserved `op` range and for one bit of each format. -/
theorem test_decode_reserved :
    ([0x0000, 0x0FFF, 0x7000, 0x8000, 0xFFFF, 0x1001, 0x1402, 0x157B, 0x2001, 0x5800, 0x6FFF, 0x3010, 0x4800].map
      fun w => decodeTableWord 16 w) = List.replicate 13 none := by decide

theorem test_decodeTableWord : decodeTableWord 16 0x400A = some (.setDownlink 10) := by decide

/-! ## Bit access, tables, extraction, whitening, collaborators (V1 to V9, V20 to V31) -/

theorem test_getBit : (List.range 16).map (getBit [0xA5, 0x01]) =
    [true, false, true, false, false, true, false, true, false, false, false, false, false, false, false, true] := by
  decide

theorem test_setBit : setBit [0xFF, 0xFF] 9 false = [0xFF, 0xBF] ∧ setBit [0x80] 7 true = [0x81] ∧
    setBit [0x81] 0 false = [0x01] := by decide

/-- V3: entry 99 of `ILV5` changed to 0. -/
theorem test_ill_formed_table :
    tableOfEntries 25 (((List.range 99).map params.ilv5.entry) ++ [0]) = .error .illFormedTable := by
  have h : entriesWellFormed 25 (((List.range 99).map params.ilv5.entry) ++ [0]) = false := by decide +kernel
  rw [tableOfEntries, dif_neg (by rw [h]; decide)]

theorem test_extract2x45 : extract2x45 countingPayload = .ok
    ([0x00, 0x01, 0x02, 0x03, 0x04, 0x05, 0x06, 0x07, 0x08, 0x12, 0x13, 0x14, 0x15, 0x16, 0x17, 0x18, 0x19, 0x1A, 0x24,
      0x25, 0x26, 0x27, 0x28, 0x29, 0x2A, 0x2B, 0x2C, 0x36, 0x37, 0x38, 0x39, 0x3A, 0x3B, 0x3C, 0x3D, 0x3E, 0x48, 0x49,
      0x4A, 0x4B, 0x4C, 0x4D, 0x4E, 0x4F, 0x50],
     [0x09, 0x0A, 0x0B, 0x0C, 0x0D, 0x0E, 0x0F, 0x10, 0x11, 0x1B, 0x1C, 0x1D, 0x1E, 0x1F, 0x20, 0x21, 0x22, 0x23, 0x2D,
      0x2E, 0x2F, 0x30, 0x31, 0x32, 0x33, 0x34, 0x35, 0x3F, 0x40, 0x41, 0x42, 0x43, 0x44, 0x45, 0x46, 0x47, 0x51, 0x52,
      0x53, 0x54, 0x55, 0x56, 0x57, 0x58, 0x59]) := by rfl

theorem test_extract25 : extract25 countingPayload = .ok
    [0x00, 0x01, 0x02, 0x03, 0x04, 0x12, 0x13, 0x14, 0x15, 0x16, 0x24, 0x25, 0x26, 0x27, 0x28, 0x36, 0x37, 0x38, 0x39,
     0x3A, 0x48, 0x49, 0x4A, 0x4B, 0x4C] := by rfl

/-- V7, at both edges of the first and the last group. -/
theorem test_insert25 :
    ([0, 4, 5, 17, 18, 71, 72, 76, 77, 89].map
      ((insert25 ((List.range 25).map fun k => BitVec.ofNat 8 (0xA0 + k)) countingPayload).byte .payload)) =
    [some 0xA0, some 0xA4, some 0x05, some 0x11, some 0xA5, some 0x47, some 0xB4, some 0xB8, some 0x4D,
      some 0x59] := by decide +kernel

/-- V8: channel bit 2 of a 45-byte buffer is the first bit of pair 9, bit 359 the second of pair 179. -/
theorem test_deinterleave :
    (deinterleave params.ilv9 ([0x20] ++ List.replicate 43 0 ++ [0x01])).zipIdx.filter (fun q => q.1.1 || q.1.2) =
      [((true, false), 9), ((false, true), 179)] := by decide +kernel

/-- V9: coded bit 10 goes to channel bit 2, coded bit 199 to channel bit 199. -/
theorem test_interleave :
    interleave params.ilv5 (List.replicate 10 false ++ [true] ++ List.replicate 188 false ++ [true]) =
      [0x20] ++ List.replicate 23 0 ++ [0x01] := by decide +kernel

theorem test_whiten : whiten params testcall.bytes 10 =
    [0xC7, 0x92, 0x02, 0x75, 0xDF, 0x6E, 0x20, 0x9C, 0xCF, 0x2F] := by decide +kernel

theorem test_whiten_zeros : whiten params (List.replicate 20 0) 20 =
    [0x93, 0xD7, 0x51, 0x21, 0x9C, 0x2F, 0x6C, 0xD0, 0xEF, 0x0F, 0xF8, 0x3D, 0xF1, 0x73, 0x20, 0x94, 0xED, 0x1E, 0x7C,
     0xD8] := by decide +kernel

theorem test_refA_convEncode : packBits 2 (fun k => (convEncode refAParams [0xB0] 8).getD k false) = [0xD8, 0xF7] := by
  decide +kernel

theorem test_refA_crc :
    refACrc [0x31, 0x32, 0x33, 0x34, 0x35, 0x36, 0x37, 0x38, 0x39] = (0xCE, 0x3C) ∧
    refACrc [0xC7, 0x92, 0x02, 0x75, 0xDF, 0x6E, 0x20, 0x9C, 0xCF, 0x2F] = (0x73, 0x52) := by decide +kernel

theorem test_stub_crc : stubCrc [0xC7, 0x92, 0x02, 0x75, 0xDF, 0x6E, 0x20, 0x9C, 0xCF, 0x2F] = (0xFB, 0x28) := by
  decide +kernel

/-- R222: the five groups after the repair with `TESTCALL`, under `REF-A`. -/
theorem test_refA_repair :
    reencode refAParams [0xC7, 0x92, 0x02, 0x75, 0xDF, 0x6E, 0x20, 0x9C, 0xCF, 0x2F] =
      [0xC2, 0x13, 0x70, 0x5E, 0x42, 0xA9, 0x17, 0xC7, 0xC6, 0xE5, 0x3A, 0xF0, 0xE5, 0xB4, 0xDE,
       0xD7, 0x61, 0xC9, 0x20, 0x0B, 0x54, 0x7A, 0x1D, 0x99, 0x84] := by decide +kernel

/-- V33: the corrected decision of `REF-A` on payload "J" with byte 18 changed from BB to 3B. -/
theorem test_refA_correction :
    decodedBlock10 refAParams
      [0xFF, 0xF3, 0x4F, 0x6E, 0x4C, 0x3B, 0x66, 0xEA, 0x06, 0x01, 0x2A, 0xF1, 0xD5, 0x74, 0x99,
       0x19, 0x1B, 0xE7, 0xE0, 0x92, 0xC0, 0x11, 0x21, 0xD9, 0xB7] =
      [0xD9, 0x96, 0x60, 0x78, 0xCF, 0x69, 0x4C, 0xF0, 0xCF, 0x2F, 0x2F, 0x71, 0x00] := by decide +kernel

/-- V11: the 45-byte half-channel of the source's end-to-end scenario, under `STUB`. -/
theorem test_stub_block20 :
    decodedBlock20 stubParams
      [0xC3, 0xFF, 0x30, 0xCC, 0x0C, 0xC0, 0xF3, 0x03, 0x00, 0x0F, 0x33, 0x0F, 0xCC, 0xFF, 0xF3, 0x00, 0x0C, 0xF0, 0x30,
       0xFF, 0x0F, 0x3F, 0xFF, 0x3F, 0xFC, 0xF3, 0x03, 0x30, 0xC3, 0x30, 0xC0, 0x30, 0xCF, 0xFC, 0x00, 0xCF, 0xF3, 0x0C,
       0x0F, 0xF0, 0xCC, 0xFF, 0xC0, 0x3C, 0xF0] =
      [0xC7, 0x92, 0x02, 0x75, 0xAC, 0x1E, 0x5E, 0xE3, 0xDB, 0x3A, 0xCE, 0x0A, 0xC9, 0x4A, 0x61, 0xD6, 0xAE, 0x5A, 0x39,
       0x9E, 0xF6, 0x0E] := by decide +kernel

/-- The 25 coded bytes of `JA1YSF` under `STUB` (V31). -/
def ja1ysfGroups : List Byte :=
  [0xC0, 0x30, 0x00, 0x3C, 0xC0, 0xCC, 0x33, 0xC3, 0x0F, 0xF0, 0x33, 0x3F, 0xFF, 0x03, 0xC0, 0xFF, 0x3F, 0x0F, 0x33, 0xCC,
   0xCC, 0x03, 0xF3, 0xFF, 0xFC]

/-- What V/D Mode 2 shows: its result, `DEST`, the trace tags, and three bytes of `PAYLOAD`. -/
def vd2View (q : Bool × State) : Bool × Option (List Byte) × List TraceTag × List (Option Byte) :=
  (q.1, q.2.dest.map Callsign.bytes, q.2.trace.map fun e => e.tag, [0, 19, 23].map (q.2.byte .payload))

/-- V32 row 1 under `STUB`, from the extracted channel on: the callsign is stored and the groups come out again. -/
theorem test_stub_vd2_store : vd2View (decodeVD2Channel stubParams 0 ja1ysfGroups countingPayload) =
    (true, some [0x4A, 0x41, 0x31, 0x59, 0x53, 0x46, 0x20, 0x20, 0x20, 0x20], [.vd2 0],
      [some 0xC0, some 0x33, some 23]) := by decide +kernel

/-- V32 row 5 under `STUB`: the repair writes the groups of `TESTCALL`, the trace shows the on-air block. -/
theorem test_stub_vd2_repair :
    vd2View (decodeVD2Channel stubParams 2 ja1ysfGroups { countingPayload with downlink := some testcall }) =
      (true, none, [.vd2 2], [some 0xF0, some 0x3F, some 23]) := by decide +kernel

/-! ## One command each -/

/-- V45: `DECODE.VFR` copies the payload region in. -/
theorem test_vfr :
    (match exec (.decodeVFR 1 5 7)
        (hostPlaceFrame (List.replicate 30 0xAA ++ (List.range 90).map (BitVec.ofNat 8)) State.reset) with
      | .next t => (t.result, [0, 1, 89].map (t.byte .payload))
      | _ => (false, [])) = (true, [some 0, some 1, some 0x59]) := by decide +kernel

/-- V46: `ENCODE` first after reset. -/
theorem test_encode_first : step (State.reset.withFetchWord 16 0x2000) = .refused .encodeBeforeDecode := rfl

/-- R157: `ENCODE` writes frame bytes 30 to 119 and no other. -/
theorem test_encode :
    (match exec .encode fullState with
      | .next t => [0, 29, 30, 119, 120].map (t.byte .frame)
      | _ => []) = [some 0, some 0, some 0x41, some 0x41, none] := by decide +kernel

/-- V40: `SET_UPLINK "W1AW"`. -/
theorem test_setUplink : ∃ t, exec (.setUplink 4)
      { State.reset with csin := Memory.cells 0 [0x57, 0x31, 0x41, 0x57, 0x58] } = .next t ∧ t.uplink = some w1aw :=
  ⟨_, rfl, rfl⟩

/-- V50, R85: `len` 15 acts as 10, and a length of 0 gives spaces. -/
theorem test_setDownlink : ∃ t u, exec (.setDownlink 15)
      { State.reset with csin := Memory.cells 0 testcall.bytes } = .next t ∧ t.downlink = some testcall ∧
    exec (.setDownlink 0) t = .next u ∧ u.downlink.map Callsign.bytes = some (List.replicate 10 0x20) :=
  ⟨_, _, rfl, rfl, rfl, rfl⟩

/-- V42: the second `GET_SOURCE` finds nothing; `DEST` is not touched. -/
theorem test_getSource : ∃ t u, exec .getSource fullState = .next t ∧ t.result = true ∧ t.source = none ∧
    t.dest = some w1aw ∧ (List.range 10).map (t.byte .csout) = w1aw.bytes.map some ∧
    exec .getSource t = .next u ∧ u.result = false ∧ u.csout = t.csout := ⟨_, _, rfl, rfl, rfl, rfl, rfl, rfl, rfl, rfl⟩

/-- R244: `GET_DEST` takes `DEST` and leaves `SOURCE`. -/
theorem test_getDest : ∃ t, exec .getDest fullState = .next t ∧ t.result = true ∧ t.dest = none ∧
    t.source = some w1aw := ⟨_, rfl, rfl, rfl, rfl⟩

/-- The five `DECODE` words run as the first command after reset. -/
theorem test_first_step : ([0x1000, 0x1400, 0x1404, 0x1408, 0x140C].all fun w =>
    match step (State.reset.withFetchWord 16 w) with
    | .next _ => true
    | _ => false) = true := by decide +kernel

/-! ## A state and operands for the hypotheses of every statement, at the edges of each clause -/

/-- `fullState` satisfies the invariant. -/
theorem fullState_inv : fullState.Inv where
  memoryWf sp := by cases sp <;> decide +kernel
  payloadFilled := by intro _; decide +kernel
  payloadEmpty := by decide
  traceSizes := by simp [fullState, State.reset, State.resetWith]

/-- A step from a state with the invariant: `SET_UPLINK` presented to a full engine. -/
theorem witness_EveryStepKeepsTheInvariant :
    ∃ t, ({ fullState with pending := [.command 0x3004] } : State).Inv ∧
      step { fullState with pending := [.command 0x3004] } = .next t :=
  ⟨_, ⟨fullState_inv.memoryWf, fullState_inv.payloadFilled, fullState_inv.payloadEmpty, fullState_inv.traceSizes⟩, rfl⟩

theorem witness_NoCommandFaults : fullState.Inv := fullState_inv

/-- Both refusals and the first length that is not refused. -/
theorem witness_RefusalsAreExactlyTheContract :
    exec (.decodeVFR 1 0 0) (zeroFrame 119) = .refused .frameTooShort ∧
    (∃ t, exec (.decodeVFR 1 0 0) (zeroFrame 120) = .next t) ∧
    exec .encode (zeroFrame 0) = .refused .encodeBeforeDecode ∧
    exec .encode { fullState with frameLen := 119 } = .refused .frameTooShort := ⟨rfl, ⟨_, rfl⟩, rfl, rfl⟩

theorem witness_StepRunsTheDecodedCommand :
    ({ State.reset with pending := [.command 0x1578, .reset] } : State).pending = .command 0x1578 :: [.reset] ∧
      decode 0x1578 = .ok (.decodeVD2 1 2 7) := ⟨rfl, by decide⟩

theorem witness_PresentedEncodingRunsTheCommand : (Instr.decodeHT 2 7 7 3).wellFormed = true := by decide

theorem witness_IdleEngineKeepsItsState : State.reset.pending = [] := rfl

/-- Every clause at its edge: an empty frame, the last byte of a space, one byte past it. -/
theorem witness_HostEventsActOnTheHostsBuffers :
    (∃ t, step { State.reset with pending := [.placeFrame []] } = .next t) ∧
    (119 + [(7 : Byte)].length ≤ State.reset.frameLen ∧
      ∃ t, step { State.reset with pending := [.writeFrame 119 [7]] } = .next t) ∧
    (9 + [(7 : Byte)].length ≤ 10 ∧ ∃ t, step { State.reset with pending := [.writeCsin 9 [7]] } = .next t) ∧
    (State.reset.frameLen < 120 + [(7 : Byte)].length ∧
      step { State.reset with pending := [.writeFrame 120 [7]] } = .fault (.outsideSpace .frame 120)) ∧
    (10 < 10 + [(7 : Byte)].length ∧
      step { State.reset with pending := [.writeCsin 10 [7]] } = .fault (.outsideSpace .csin 10)) ∧
    (∃ t, step { State.reset with pending := [.reset] } = .next t) ∧
    step { State.reset with pending := [.concurrent] } = .refused .concurrentCommand :=
  ⟨⟨_, rfl⟩, ⟨by decide, _, rfl⟩, ⟨by decide, _, rfl⟩, ⟨by decide, rfl⟩, ⟨by decide, rfl⟩, ⟨_, rfl⟩, rfl⟩

/-- Each way to be reserved, and a word that is not. -/
theorem witness_ReservedWordsAreRefused :
    decode 0x0000 = .error (.reservedOp 0) ∧ decode 0x7000 = .error (.reservedOp 7) ∧
    decode 0x1001 = .error (.reservedBits 0x1001) ∧ decode 0x3010 = .error (.reservedBits 0x3010) ∧
    decode 0x2001 = .error (.reservedBits 0x2001) ∧ decode 0x2000 = .ok .encode := by decide

theorem witness_DecoderAgreesWithTheOpcodeTable :
    (⟨"ENCODE", 0x2000, 0xFFFF⟩ : OpcodeRow) ∈ opcodeRows ∧
      (⟨"ENCODE", 0x2000, 0xFFFF⟩ : OpcodeRow).selects 0x2000 = true ∧ decode 0x2000 = .ok .encode ∧
      ∀ r ∈ opcodeRows, r.selects 0x2001 = false := by decide

theorem witness_DecodeInvertsEncode : (Instr.decodeVD2 3 7 7).wellFormed = true := by decide

theorem witness_EncodeInvertsDecode : decode 0x1C08 = .ok (.decodeVD2 3 0 0) := by decide

theorem witness_ModeDecoderFollowsTheDispatch : decode (wordD 1 5 7 3) = .ok (.decodeVFR 1 5 7) := by decide

/-- A table that is accepted, one that is refused, and the lists that are well-formed. -/
theorem witness_TablePositionsAreExactlyTheChannel :
    (∃ T, tableOfEntries 1 [6, 0, 2, 4] = .ok T) ∧ tableOfEntries 1 [0, 1, 4, 6] = .error .illFormedTable ∧
      ([6, 0, 2, 4].flatMap fun e => [e, e + 1]).Perm (List.range (8 * 1)) := by
  have h : entriesWellFormed 1 [0, 1, 4, 6] = false := by decide
  exact ⟨⟨_, dif_pos (by decide)⟩, by rw [tableOfEntries, dif_neg (by rw [h]; decide)], by decide⟩

theorem witness_InterleaveAndDeinterleaveAreInverse :
    (List.replicate 360 true).length = 8 * 45 ∧ (List.replicate 45 (0x81 : Byte)).length = 45 :=
  ⟨List.length_replicate .., List.length_replicate ..⟩

theorem witness_WhiteningIsSelfInverse : 20 ≤ (List.replicate 20 (0x55 : Byte)).length := by simp

/-- A buffer that passes the check, with the CRC in its last two bytes. -/
theorem witness_CrcCollaboratorMeetsItsContract :
    1 + 2 ≤ [(1 : Byte), 0xFF, 0xFE].length ∧ crcCheck stubParams [1, 0xFF, 0xFE] 1 = true := by decide +kernel

/-- The three extractions answer, from a payload that holds a value in every byte. -/
theorem witness_BlockSizesAreFixed :
    (∃ d, extract25 countingPayload = .ok d) ∧ (∃ d, extract45 countingPayload = .ok d) ∧
      ∃ d1 d2, extract2x45 countingPayload = .ok (d1, d2) :=
  ⟨⟨_, test_extract25⟩, ⟨_, rfl⟩, ⟨_, _, test_extract2x45⟩⟩

theorem witness_InsertedChannelIsExtractedAgain : (List.replicate 25 (0xA0 : Byte)).length = 25 ∧ ¬ inGroup 5 := by
  simp [inGroup]

theorem witness_CanonicalMemoriesAreEqualWhenTheyReadEqual :
    Memory.wf (some 0) 10 [(0, 1), (9, 2)] ∧ ¬ Memory.wf (some 0) 10 [(0, 0)] ∧ ¬ Memory.wf none 10 [(10, 1)] := by
  decide

theorem witness_TwoHalfChannelDecodesComplete : params.payloadOff + 90 ≤ (zeroFrame 120).frameLen := by decide

theorem witness_VoiceDataOneAndVoiceFullRateComplete : params.payloadOff + 90 ≤ (zeroFrame 120).frameLen := by decide

/-- A frame that is long enough; both CRC outcomes; both repairs and their absence. -/
theorem witness_VoiceDataTwoDecisionTable :
    params.payloadOff + 90 ≤ (zeroFrame 120).frameLen ∧
    vd2Crc (fixedParams (0, 0) .overwrite) (zeroFrame 120) = true ∧
    vd2Crc (fixedParams (1, 0) .overwrite) (zeroFrame 120) = false ∧
    fullState.downlink = some testcall ∧ fullState.uplink = some testcall ∧ (zeroFrame 120).downlink = none := by
  refine ⟨by decide, by decide +kernel, by decide +kernel, rfl, rfl, rfl⟩

/-- The refused clause and the completing clause. -/
theorem witness_EncodeCopiesThePayloadOut :
    State.reset.payloadValid = false ∧ fullState.payloadValid = true ∧
      params.payloadOff + 90 ≤ fullState.frameLen ∧ ∀ k < 90, (fullState.byte .payload k).isSome :=
  ⟨rfl, rfl, by decide, fullState_inv.payloadFilled rfl⟩

/-- Both outcomes of both commands. -/
theorem witness_GetCommandsTakeTheMailbox :
    State.reset.source = none ∧ State.reset.dest = none ∧ fullState.source = some w1aw ∧
      fullState.dest = some w1aw := ⟨rfl, rfl, rfl, rfl⟩

theorem witness_SlotsFollowTheirLifeCycle :
    (∃ t, exec .getDest fullState = .next t) ∧ (∃ t, exec .getDest State.reset = .next t) ∧
    (∃ t, exec .getSource fullState = .next t) ∧ (∃ t, exec .getSource State.reset = .next t) ∧
    fullState.dest = some w1aw ∧ State.reset.source = none := ⟨⟨_, rfl⟩, ⟨_, rfl⟩, ⟨_, rfl⟩, ⟨_, rfl⟩, rfl, rfl⟩

/-- `GET_DEST` changes the slot `DEST`. -/
theorem witness_AtMostOneSlotChanges :
    ∃ t, exec .getDest fullState = .next t ∧ t.slot .dest ≠ fullState.slot .dest := ⟨_, rfl, by decide⟩

/-- A `SET` that changes its slot; a command outside each exception. -/
theorem witness_SetSlotsAreReadOnlyByTheRepair :
    (∃ t, exec (.setUplink 0) fullState = .next t ∧ t.uplink ≠ fullState.uplink) ∧
    (∃ t, exec (.setDownlink 0) fullState = .next t ∧ t.downlink ≠ fullState.downlink) ∧ fullState.uplink ≠ none ∧
    fullState.downlink ≠ none ∧ (∀ fi ft, Instr.getDest ≠ .decodeVD2 fi 3 ft) ∧
    ∀ fi ft, Instr.getDest ≠ .decodeVD2 fi 2 ft :=
  ⟨⟨_, rfl, by decide +kernel⟩, ⟨_, rfl, by decide +kernel⟩, by decide, by decide, by simp, by simp⟩

/-- A V/D Mode 2 command completes on a frame that is long enough, under any parameters. -/
theorem vd2_completes (p : Params) (fi : BitVec 2) (fn ft : BitVec 3) (s : State) (h : frameLongEnough p s = true) :
    ∃ t, execWith p (.decodeVD2 fi fn ft) s = .next t := ⟨_, decodeCommand_eq h (decodeVD2_copiedIn p fn s)⟩

/-- So does a V/D Mode 1 command. -/
theorem vd1_completes (fi : BitVec 2) (fn ft : BitVec 3) (s : State) (h : frameLongEnough params s = true) :
    ∃ t, exec (.decodeVD1 fi fn ft) s = .next t := ⟨_, decodeCommand_eq h (decodeVD1_copiedIn params s)⟩

/-- Both policies, an empty and a full mailbox. -/
theorem witness_MailboxStoreFollowsThePolicy :
    (∀ policy, vd2Crc (fixedParams (0, 0) policy) fullState = true) ∧
    (∀ policy fn, ∃ t, execWith (fixedParams (0, 0) policy) (.decodeVD2 1 fn 7) fullState = .next t) ∧
    (fixedParams (0, 0) .keepFirst).mailboxPolicy = .keepFirst ∧ fullState.dest = some w1aw ∧
    fullState.source = some w1aw ∧ (zeroFrame 120).dest = none :=
  ⟨fun policy => by cases policy <;> decide +kernel,
    fun policy fn => vd2_completes _ _ _ _ _ (by cases policy <;> rfl), rfl, rfl, rfl, rfl⟩

/-- A mailbox that a frame fills, and both `GET`s. -/
theorem witness_SecondGetFindsNothing :
    (∃ t, exec .getSource fullState = .next t) ∧ (∃ t, exec .getDest fullState = .next t) ∧
    (zeroFrame 120).dest = none ∧ (zeroFrame 120).source = none ∧
    (match execWith (fixedParams (0, 0) .overwrite) (.decodeVD2 1 0 7) (zeroFrame 120) with
      | .next t => t.dest.isSome
      | _ => false) = true ∧
    (match execWith (fixedParams (0, 0) .overwrite) (.decodeVD2 1 1 7) (zeroFrame 120) with
      | .next t => t.source.isSome
      | _ => false) = true := ⟨⟨_, rfl⟩, ⟨_, rfl⟩, rfl, rfl, by decide +kernel, by decide +kernel⟩

theorem witness_ResultFlagIsAsSpecified : ∃ t, exec (.decodeVFR 1 0 0) (zeroFrame 120) = .next t := ⟨_, rfl⟩

theorem witness_CommandsWriteOnlyTheirOwnState :
    (∃ t, exec (.setUplink 3) fullState = .next t) ∧ (Instr.setUplink 3).isDecode = false := ⟨⟨_, rfl⟩, rfl⟩

/-- A loaded, a regenerated and a kept payload. -/
theorem witness_PayloadFollowsItsStateMachine :
    (match execWith (fixedParams (1, 0) .overwrite) (.decodeVD2 1 0 7) fullState with
      | .next t => !t.result
      | _ => false) = true ∧
    (match execWith (fixedParams (0, 0) .overwrite) (.decodeVD2 1 0 7) fullState with
      | .next t => t.result
      | _ => false) = true ∧
    (∃ t, execWith (fixedParams (0, 0) .overwrite) (.setUplink 3) fullState = .next t) ∧
    fullState.payloadValid = true := ⟨by decide +kernel, by decide +kernel, ⟨_, rfl⟩, rfl⟩

theorem witness_FailedDecodeKeepsTheInput :
    (Instr.decodeVD2 1 0 7).isDecode = true ∧
    (match execWith (fixedParams (1, 0) .overwrite) (.decodeVD2 1 0 7) fullState with
      | .next t => !t.result
      | _ => false) = true := ⟨rfl, by decide +kernel⟩

theorem witness_DecodeTwiceIsDecodeOnce :
    ∃ t u, (Instr.decodeVFR 1 0 0).isDecode = true ∧ exec (.decodeVFR 1 0 0) (zeroFrame 120) = .next t ∧
      exec (.decodeVFR 1 0 0) t = .next u := ⟨_, _, rfl, rfl, rfl⟩

/-- Two frames that differ in the first byte of the frame agree on the payload region; each kind of outcome. -/
theorem witness_FrameOutsideThePayloadIsNeverTouched :
    (∀ k < 90, ({ fullState with frame := [(0, 1)] } : State).byte .frame (params.payloadOff + k) =
      fullState.byte .frame (params.payloadOff + k)) ∧
    exec .encode State.reset = .refused .encodeBeforeDecode ∧
    exec .encode { fullState with payload := [] } = .fault (.noValue .payload 0) ∧
    ∃ t, exec .encode fullState = .next t := ⟨by decide +kernel, rfl, rfl, ⟨_, rfl⟩⟩

/-- Two frames that differ in payload byte 9, which neither V/D mode reads. -/
theorem witness_UninterpretedPayloadBytesDoNotMatter :
    (∀ k < 90, k % 18 < 9 → ({ fullState with frame := [(39, 1)] } : State).byte .frame (params.payloadOff + k) =
      fullState.byte .frame (params.payloadOff + k)) ∧
    (∀ k < 90, k % 18 < 5 → ({ fullState with frame := [(39, 1)] } : State).byte .frame (params.payloadOff + k) =
      fullState.byte .frame (params.payloadOff + k)) ∧
    (∃ t, exec (.decodeVD1 1 0 0) fullState = .next t) ∧
    (∃ t, exec (.decodeVD1 1 0 0) { fullState with frame := [(39, 1)] } = .next t) ∧
    (∃ t, exec (.decodeVD2 1 2 0) fullState = .next t) ∧
    (∃ t, exec (.decodeVD2 1 2 0) { fullState with frame := [(39, 1)] } = .next t) ∧
    (∃ t, exec (.decodeVFR 1 0 0) fullState = .next t) ∧
    ∃ t, exec (.decodeVFR 1 0 0) { fullState with frame := [(39, 1)] } = .next t :=
  ⟨by decide +kernel, by decide +kernel, vd1_completes 1 0 0 _ rfl, vd1_completes 1 0 0 _ rfl, vd2_completes _ 1 2 0 _ rfl, vd2_completes _ 1 2 0 _ rfl,
    ⟨_, rfl⟩, ⟨_, rfl⟩⟩

theorem witness_DecodeForgetsTheOldPayload :
    (Instr.decodeVFR 1 0 0).isDecode = true ∧ ∃ t, exec (.decodeVFR 1 0 0) fullState = .next t := ⟨rfl, ⟨_, rfl⟩⟩

theorem witness_TraceIsNeverRead :
    ∃ t, execWith (fixedParams (0, 0) .overwrite) (.decodeVD2 1 0 7) fullState = .next t := vd2_completes _ _ _ _ _ rfl

/-- The zero frame is its own re-encoding under collaborators that give zeros. -/
theorem witness_UncorruptedFrameRoundTrips :
    (∃ t, execWith (fixedParams (0, 0) .overwrite) (.decodeVD2 1 0 7) (zeroFrame 120) = .next t) ∧
    vd2Crc (fixedParams (0, 0) .overwrite) (zeroFrame 120) = true ∧ substitute 0 (zeroFrame 120) = none ∧
    flattenPairs (deinterleave (fixedParams (0, 0) .overwrite).ilv5
        (channel 5 0 (window (fixedParams (0, 0) .overwrite) (zeroFrame 120)))) =
      convEncode (fixedParams (0, 0) .overwrite) (vd2Out (fixedParams (0, 0) .overwrite) (zeroFrame 120)) 100 :=
  ⟨vd2_completes _ _ _ _ _ rfl, by decide +kernel, rfl, by decide +kernel⟩

/-- Both repairs, under `STUB`. -/
theorem witness_RepairedFrameDecodesToTheCallsign :
    ConvRoundTrip stubParams ∧ (∃ t, execWith stubParams (.decodeVD2 1 2 7) fullState = .next t) ∧
    substitute 2 fullState = some testcall ∧ (∃ t, execWith stubParams (.decodeVD2 1 3 7) fullState = .next t) ∧
    substitute 3 fullState = some testcall :=
  ⟨stub_convRoundTrip, vd2_completes _ _ _ _ _ rfl, rfl, vd2_completes _ _ _ _ _ rfl, rfl⟩

/-- Two frames that differ in coded byte 0 and decode to the same block. -/
theorem witness_RegenerationDependsOnTheDecodedBlockOnly :
    (∃ t, execWith (fixedParams (0, 0) .overwrite) (.decodeVD2 1 4 7) (zeroFrame 120) = .next t) ∧
    (∃ t, execWith (fixedParams (0, 0) .overwrite) (.decodeVD2 1 4 7) { zeroFrame 120 with frame := [(30, 1)] } = .next t) ∧
    vd2Crc (fixedParams (0, 0) .overwrite) (zeroFrame 120) = true ∧ substitute 4 (zeroFrame 120) = none ∧
    vd2Out (fixedParams (0, 0) .overwrite) { zeroFrame 120 with frame := [(30, 1)] } =
      vd2Out (fixedParams (0, 0) .overwrite) (zeroFrame 120) :=
  ⟨vd2_completes _ _ _ _ _ rfl, vd2_completes _ _ _ _ _ rfl, by decide +kernel, rfl, by decide +kernel⟩

/-- The payload that carries the same coded block in both half-channels. -/
def twoBlocks (c : List Byte) : List Byte := (List.range 90).map fun k => c.getD (9 * (k / 18) + k % 18 % 9) 0

/-- The frame with that payload. -/
def twoBlockFrame (c : List Byte) : State := hostPlaceFrame (List.replicate 30 0xAA ++ twoBlocks c) State.reset

/-- Both channels of that frame are the block. -/
theorem twoBlockFrame_channel {c : List Byte} (hc : c.length = 45) {off : Nat} (ho : off = 0 ∨ off = 9) :
    channel 9 off (window stubParams (twoBlockFrame c)) = c := by
  have hb : ∀ k < 90, (twoBlockFrame c).byte .frame (30 + k) = some (c.getD (9 * (k / 18) + k % 18 % 9) 0) := by
    intro k hk
    have : 30 + k < (List.replicate 30 (0xAA : Byte) ++ twoBlocks c).length := by simp [twoBlocks]; omega
    unfold twoBlockFrame hostPlaceFrame State.byte
    simp only [State.size, State.mem, read_write]
    rw [if_pos this, if_pos ⟨Nat.zero_le _, by omega⟩, Nat.sub_zero, List.getElem?_append_right (by simp)]
    simp [twoBlocks, hk]
  apply List.ext_getElem (by simp [hc])
  intro k h1 h2
  simp only [channel_length] at h1
  have hw : ∀ j < 90, (window stubParams (twoBlockFrame c)).getD j 0 = c.getD (9 * (j / 18) + j % 18 % 9) 0 := by
    intro j hj
    have := hb j hj
    simp only [window, List.getD_eq_getElem?_getD, List.getElem?_map, List.getElem?_range hj, Option.map_some,
      Option.getD_some]
    rw [show stubParams.payloadOff = 30 from rfl, this, Option.getD_some, List.getD_eq_getElem?_getD]
  simp only [channel, List.getElem_map, List.getElem_range]
  rw [hw _ (by omega), show 9 * ((18 * (k / 9) + off + k % 9) / 18) + (18 * (k / 9) + off + k % 9) % 18 % 9 = k by omega,
    List.getD_eq_getElem _ _ h2]

/-- Both half-channels carry the coded plaintext of ten `A`s and ten `B`s, under `STUB`. -/
theorem witness_BuiltBlocksDecodeToTheirPlaintext :
    ∃ (P : List Byte) (s : State), ConvRoundTrip stubParams ∧ P.length = 20 ∧
      stubParams.payloadOff + 90 ≤ s.frameLen ∧ channel 9 0 (window stubParams s) = codedBlock20 stubParams P ∧
      channel 9 9 (window stubParams s) = codedBlock20 stubParams P :=
  ⟨List.replicate 10 0x41 ++ List.replicate 10 0x42,
    twoBlockFrame (codedBlock20 stubParams (List.replicate 10 0x41 ++ List.replicate 10 0x42)), stub_convRoundTrip,
    by simp, by show 30 + 90 ≤ (List.replicate 30 (0xAA : Byte) ++ twoBlocks _).length; simp [twoBlocks],
    twoBlockFrame_channel (by simp [codedBlock20]) (.inl rfl), twoBlockFrame_channel (by simp [codedBlock20]) (.inr rfl)⟩

/-- Parameters with other `fi` codes, another payload offset and a longer frame than the defaults. -/
def otherParams : Params :=
  { params with
    syncLen := 6, fichLen := 26, frameLen := 200, frameFits := by decide, fiHeader := 3, fiTerm := 1 }

/-- The engine's own codes select: `fi` 3 is its header, `fi` 0 is not. -/
theorem test_other_codes :
    decodeWith otherParams 0b0001_11_000_000_10_00 = .ok (.decodeHT 3 0 0 2) ∧
      decodeWith otherParams 0b0001_00_000_000_10_00 = .ok (.decodeVD2 0 0 0) := by decide

/-- The first command of that engine finds its own frame length and its own payload offset. -/
theorem test_other_frame :
    (State.resetWith otherParams).frameLen = 200 ∧
      ∃ t, stepWith otherParams (presentWord 0b0001_10_101_111_11_00 (State.resetWith otherParams)) = .next t :=
  ⟨rfl, _, rfl⟩

/-- A command that the one engine can select and the other cannot; a word that both decode. -/
theorem witness_EveryEngineDecodesWhatItEncodes :
    (Instr.decodeHT 3 7 7 3).wellFormedWith otherParams = true ∧ (Instr.decodeHT 3 7 7 3).wellFormed = false ∧
      decodeWith otherParams 0x2000 = .ok .encode := by decide

/-- A step of that engine from a state with the invariant. -/
theorem witness_EveryEngineKeepsTheInvariant :
    ∃ t, ({ fullState with pending := [.command 0x3004] } : State).Inv ∧
      stepWith otherParams { fullState with pending := [.command 0x3004] } = .next t :=
  ⟨_, ⟨fullState_inv.memoryWf, fullState_inv.payloadFilled, fullState_inv.payloadEmpty, fullState_inv.traceSizes⟩, rfl⟩

theorem witness_FrameOfFrameLenIsNeverTooShort :
    ({ fullState with frameLen := 200 } : State).frameLen = otherParams.frameLen ∧
      (Instr.decodeVFR 0 0 0).isDecode = true := ⟨rfl, rfl⟩

end Sys2Proof.Tests
end

section
/-! The encoding of an engine of any parameter set (R5, R87 to R94): a command word by its number, the fields of a word,
and decoding and encoding as inverses of each other. -/

namespace Sys2Proof

/-! ## Words by their numbers (R94) -/

theorem toNat_append_eq_add {n m : Nat} (x : BitVec n) (y : BitVec m) :
    (x ++ y).toNat = x.toNat * 2 ^ m + y.toNat := by
  rw [BitVec.toNat_append, ← Nat.shiftLeft_add_eq_or_of_lt y.isLt, Nat.shiftLeft_eq]

/-- The number of a word of format `D`, as R94 prints it. -/
theorem wordD_toNat (fi : BitVec 2) (fn ft : BitVec 3) (dt : BitVec 2) :
    (wordD fi fn ft dt).toNat = 0x1000 + fi.toNat * 1024 + fn.toNat * 128 + ft.toNat * 16 + dt.toNat * 4 := by
  have h : (wordD fi fn ft dt).toNat = (1#4 ++ fi ++ fn ++ ft ++ dt ++ 0#2 : BitVec (4 + 2 + 3 + 3 + 2 + 2)).toNat := rfl
  rw [h]
  simp only [toNat_append_eq_add, BitVec.toNat_ofNat]
  omega

/-- The number of a word of format `L` (R87, R94). -/
theorem wordL_toNat (op len : BitVec 4) : (op ++ 0#8 ++ len : Word).toNat = op.toNat * 0x1000 + len.toNat := by
  have h : (op ++ 0#8 ++ len : Word).toNat = (op ++ 0#8 ++ len : BitVec (4 + 8 + 4)).toNat := rfl
  rw [h]
  simp only [toNat_append_eq_add, BitVec.toNat_ofNat]
  omega

section fields
variable (w : Word)

theorem extractLsb'_toNat_eq (i n : Nat) : (w.extractLsb' i n).toNat = w.toNat / 2 ^ i % 2 ^ n := by
  rw [BitVec.extractLsb'_toNat, Nat.shiftRight_eq_div_pow]

/-- A must-be-zero range of a word (R87), by the word's number. -/
theorem extractLsb'_eq_zero_iff {i n : Nat} : w.extractLsb' i n = 0 ↔ w.toNat / 2 ^ i % 2 ^ n = 0 := by
  rw [← extractLsb'_toNat_eq, ← BitVec.toNat_inj]; rfl

theorem opField_toNat : (opField w).toNat = w.toNat / 4096 % 16 := extractLsb'_toNat_eq w 12 4
theorem fiField_toNat : (fiField w).toNat = w.toNat / 1024 % 4 := extractLsb'_toNat_eq w 10 2
theorem fnField_toNat : (fnField w).toNat = w.toNat / 128 % 8 := extractLsb'_toNat_eq w 7 3
theorem ftField_toNat : (ftField w).toNat = w.toNat / 16 % 8 := extractLsb'_toNat_eq w 4 3
theorem dtField_toNat : (dtField w).toNat = w.toNat / 4 % 4 := extractLsb'_toNat_eq w 2 2
theorem lenField_toNat : (lenField w).toNat = w.toNat % 16 := by
  simp [lenField]

end fields

/-! ## The fields of an encoded word (R87, R89) -/

section wordD
variable (fi : BitVec 2) (fn ft : BitVec 3) (dt : BitVec 2)

@[simp] theorem opField_wordD : opField (wordD fi fn ft dt) = 1 := by
  apply BitVec.eq_of_toNat_eq
  rw [opField_toNat, wordD_toNat]
  show _ = 1
  omega

@[simp] theorem fiField_wordD : fiField (wordD fi fn ft dt) = fi := by
  apply BitVec.eq_of_toNat_eq
  rw [fiField_toNat, wordD_toNat]
  omega

@[simp] theorem fnField_wordD : fnField (wordD fi fn ft dt) = fn := by
  apply BitVec.eq_of_toNat_eq
  rw [fnField_toNat, wordD_toNat]
  omega

@[simp] theorem ftField_wordD : ftField (wordD fi fn ft dt) = ft := by
  apply BitVec.eq_of_toNat_eq
  rw [ftField_toNat, wordD_toNat]
  omega

@[simp] theorem dtField_wordD : dtField (wordD fi fn ft dt) = dt := by
  apply BitVec.eq_of_toNat_eq
  rw [dtField_toNat, wordD_toNat]
  omega

@[simp] theorem zeroBits_wordD : (wordD fi fn ft dt).extractLsb' 0 2 = 0 := by
  rw [extractLsb'_eq_zero_iff, wordD_toNat]
  omega

end wordD

section wordL
variable (op len : BitVec 4)

@[simp] theorem opField_wordL : opField (op ++ 0#8 ++ len : Word) = op := by
  apply BitVec.eq_of_toNat_eq
  rw [opField_toNat, wordL_toNat]
  omega

@[simp] theorem lenField_wordL : lenField (op ++ 0#8 ++ len : Word) = len := by
  apply BitVec.eq_of_toNat_eq
  rw [lenField_toNat, wordL_toNat]
  omega

@[simp] theorem zeroBits_wordL : (op ++ 0#8 ++ len : Word).extractLsb' 4 8 = 0 := by
  rw [extractLsb'_eq_zero_iff, wordL_toNat]
  omega

end wordL

/-! ## A word is made of its fields (R87) -/

theorem wordD_of_fields {w : Word} (hop : (opField w).toNat = 1) (hz : w.extractLsb' 0 2 = 0) :
    wordD (fiField w) (fnField w) (ftField w) (dtField w) = w := by
  rw [extractLsb'_eq_zero_iff] at hz
  rw [opField_toNat] at hop
  apply BitVec.eq_of_toNat_eq
  rw [wordD_toNat, fiField_toNat, fnField_toNat, ftField_toNat, dtField_toNat]
  omega

theorem wordL_of_fields {op : BitVec 4} {w : Word} (hop : (opField w).toNat = op.toNat) (hz : w.extractLsb' 4 8 = 0) :
    (op ++ 0#8 ++ lenField w : Word) = w := by
  rw [extractLsb'_eq_zero_iff] at hz
  rw [opField_toNat] at hop
  apply BitVec.eq_of_toNat_eq
  rw [wordL_toNat, lenField_toNat]
  omega

theorem wordZ_of_fields {op : BitVec 4} {w : Word} (hop : (opField w).toNat = op.toNat) (hz : w.extractLsb' 0 12 = 0) :
    (op ++ 0#12 : Word) = w := by
  rw [extractLsb'_eq_zero_iff] at hz
  rw [opField_toNat] at hop
  apply BitVec.eq_of_toNat_eq
  have h : (op ++ 0#12 : Word).toNat = (op ++ 0#12 : BitVec (4 + 12)).toNat := rfl
  rw [h, toNat_append_eq_add, BitVec.toNat_ofNat]
  omega

/-! ## The mode decoder (R83) -/

theorem isHeaderOrTerm_iff {p : Params} {fi : BitVec 2} :
    p.isHeaderOrTerm fi = true ↔ fi = p.fiHeader ∨ fi = p.fiTerm := by
  simp [Params.isHeaderOrTerm]

/-- All that the mode decoder can select (R83): the form of the first matching row. -/
theorem selectDecode_cases (p : Params) (fi : BitVec 2) (fn ft : BitVec 3) (dt : BitVec 2) :
    (p.isHeaderOrTerm fi = true ∧ selectDecode p fi fn ft dt = .decodeHT fi fn ft dt) ∨
    (p.isHeaderOrTerm fi = false ∧
      ((dt = 0 ∧ selectDecode p fi fn ft dt = .decodeVD1 fi fn ft) ∨
       (dt = 2 ∧ selectDecode p fi fn ft dt = .decodeVD2 fi fn ft) ∨
       (dt = 1 ∧ selectDecode p fi fn ft dt = .decodeDFR fi fn ft) ∨
       (dt = 3 ∧ selectDecode p fi fn ft dt = .decodeVFR fi fn ft))) := by
  cases hp : p.isHeaderOrTerm fi with
  | true => simp [selectDecode, hp]
  | false =>
    have hdt : dt = 0 ∨ dt = 1 ∨ dt = 2 ∨ dt = 3 := by revert dt; decide
    rcases hdt with rfl | rfl | rfl | rfl <;> simp [selectDecode, hp]

/-- What the mode decoder selects is a command of its engine (R83). -/
theorem selectDecode_wellFormed (p : Params) (fi : BitVec 2) (fn ft : BitVec 3) (dt : BitVec 2) :
    (selectDecode p fi fn ft dt).wellFormedWith p = true := by
  rcases selectDecode_cases p fi fn ft dt with ⟨hp, e⟩ | ⟨hp, ⟨-, e⟩ | ⟨-, e⟩ | ⟨-, e⟩ | ⟨-, e⟩⟩ <;>
    simp [e, Instr.wellFormedWith, hp]

/-- What the mode decoder selects is encoded by the fields it was selected by (R83, R87). -/
theorem encode_selectDecode (p : Params) (fi : BitVec 2) (fn ft : BitVec 3) (dt : BitVec 2) :
    encode (selectDecode p fi fn ft dt) = wordD fi fn ft dt := by
  rcases selectDecode_cases p fi fn ft dt with ⟨-, e⟩ | ⟨-, ⟨rfl, e⟩ | ⟨rfl, e⟩ | ⟨rfl, e⟩ | ⟨rfl, e⟩⟩ <;> rw [e] <;> rfl

/-! ## The decoder under any parameters (R88, R91) -/

theorem decodeFormatD_eq_ok {p : Params} {w : Word} {i : Instr} :
    decodeFormatD p w = .ok i ↔
      w.extractLsb' 0 2 = 0 ∧ selectDecode p (fiField w) (fnField w) (ftField w) (dtField w) = i := by
  unfold decodeFormatD
  split <;> rename_i hz <;> simp only [hz, true_and, false_and, Except.ok.injEq, reduceCtorEq]

theorem decodeFormatL_eq_ok {mk : BitVec 4 → Instr} {w : Word} {i : Instr} :
    decodeFormatL mk w = .ok i ↔ w.extractLsb' 4 8 = 0 ∧ mk (lenField w) = i := by
  unfold decodeFormatL
  split <;> rename_i hz <;> simp only [hz, true_and, false_and, Except.ok.injEq, reduceCtorEq]

theorem decodeFormatZ_eq_ok {j : Instr} {w : Word} {i : Instr} :
    decodeFormatZ j w = .ok i ↔ w.extractLsb' 0 12 = 0 ∧ j = i := by
  unfold decodeFormatZ
  split <;> rename_i hz <;> simp only [hz, true_and, false_and, Except.ok.injEq, reduceCtorEq]

/-- A word of format `D` decodes to what the mode decoder selects by its fields (R83, R88). -/
theorem decodeWith_wordD (p : Params) (fi : BitVec 2) (fn ft : BitVec 3) (dt : BitVec 2) :
    decodeWith p (wordD fi fn ft dt) = .ok (selectDecode p fi fn ft dt) := by
  have h : decodeWith p (wordD fi fn ft dt) = decodeFormatD p (wordD fi fn ft dt) := by
    simp only [decodeWith, opField_wordD]; rfl
  simp [h, decodeFormatD_eq_ok]

/-- A word of format `L` carries its length to the command its format builds (R87, R88). -/
theorem decodeFormatL_wordL (mk : BitVec 4 → Instr) (op len : BitVec 4) :
    decodeFormatL mk (op ++ 0#8 ++ len : Word) = .ok (mk len) :=
  decodeFormatL_eq_ok.2 ⟨zeroBits_wordL op len, congrArg mk (lenField_wordL op len)⟩

/-- A command of the engine is what its encoding decodes to, for every operand value (R87 to R91). -/
theorem decodeWith_encode {p : Params} {i : Instr} (h : i.wellFormedWith p = true) : decodeWith p (encode i) = .ok i := by
  cases i with
  | decodeHT fi fn ft dt =>
    have hp : p.isHeaderOrTerm fi = true := h
    simp [encode, decodeWith_wordD, selectDecode, hp]
  | decodeVD1 fi fn ft | decodeDFR fi fn ft | decodeVD2 fi fn ft | decodeVFR fi fn ft =>
    have hp : p.isHeaderOrTerm fi = false := by simpa [Instr.wellFormedWith] using h
    simp [encode, decodeWith_wordD, selectDecode, hp]
  | encode | getSource | getDest => rfl
  | setUplink len | setDownlink len =>
    rw [decodeWith, encode, opField_wordL]
    exact decodeFormatL_wordL ..

/-- What a word decodes to is a command of the engine, and its encoding is the word (R87 to R91). -/
theorem decodeWith_eq_ok {p : Params} {w : Word} {i : Instr} (h : decodeWith p w = .ok i) :
    i.wellFormedWith p = true ∧ encode i = w := by
  unfold decodeWith at h
  split at h
  case h_1 hop =>
    obtain ⟨hz, rfl⟩ := decodeFormatD_eq_ok.1 h
    exact ⟨selectDecode_wellFormed .., (encode_selectDecode ..).trans (wordD_of_fields hop hz)⟩
  case h_2 hop =>
    obtain ⟨hz, rfl⟩ := decodeFormatZ_eq_ok.1 h
    exact ⟨rfl, wordZ_of_fields (op := 2) hop hz⟩
  case h_3 hop =>
    obtain ⟨hz, rfl⟩ := decodeFormatL_eq_ok.1 h
    exact ⟨rfl, wordL_of_fields (op := 3) hop hz⟩
  case h_4 hop =>
    obtain ⟨hz, rfl⟩ := decodeFormatL_eq_ok.1 h
    exact ⟨rfl, wordL_of_fields (op := 4) hop hz⟩
  case h_5 hop =>
    obtain ⟨hz, rfl⟩ := decodeFormatZ_eq_ok.1 h
    exact ⟨rfl, wordZ_of_fields (op := 5) hop hz⟩
  case h_6 hop =>
    obtain ⟨hz, rfl⟩ := decodeFormatZ_eq_ok.1 h
    exact ⟨rfl, wordZ_of_fields (op := 6) hop hz⟩
  case h_7 => cases h

end Sys2Proof

namespace Sys2Proof.Machine

/-- Presenting a word that decodes runs its command at once, and the event is taken (R28, R63). -/
theorem stepWith_presentWord {p : Params} {w : Word} {i : Instr} (h : decodeWith p w = .ok i) (s : State) :
    stepWith p (presentWord w s) = execWith p i s := by
  simp only [stepWith, performNext, fetch, presentWord, h]

/-- Settles O51: each direction of the round trip is one lemma about `decodeWith`, and a word that decodes runs its
command. -/
theorem everyEngineDecodesWhatItEncodes : Obligations.EveryEngineDecodesWhatItEncodes := by
  intro p
  refine ⟨fun i hi => ?_, fun w i h => decodeWith_eq_ok h⟩
  have hd : decodeWith p (encode i) = .ok i := decodeWith_encode hi
  exact ⟨hd, stepWith_presentWord hd⟩

end Sys2Proof.Machine
end

section
/-! The dispatch and the commands of an engine of any parameter set (R5, R150, R152): what a `DECODE` leaves, in one
equation for its five forms, and all that a command which completes can have done. -/

namespace Sys2Proof.Machine

/-! ## The dispatch (R83, R152) -/

/-- The mode decoder's choice, its test written on the codes (R82, R83). -/
theorem selectDecode_eq (p : Params) (fi : BitVec 2) (fn ft : BitVec 3) (dt : BitVec 2) :
    selectDecode p fi fn ft dt =
      if fi = p.fiHeader ∨ fi = p.fiTerm then .decodeHT fi fn ft dt
      else if dt = 0 then .decodeVD1 fi fn ft
      else if dt = 2 then .decodeVD2 fi fn ft
      else if dt = 1 then .decodeDFR fi fn ft
      else .decodeVFR fi fn ft := by
  simp only [selectDecode, isHeaderOrTerm_iff]

/-- Running what the mode decoder selects is the copy-in and the routine of the dispatch (R152). -/
theorem execWith_selectDecode (p : Params) (fi : BitVec 2) (fn ft : BitVec 3) (dt : BitVec 2) (s : State) :
    execWith p (selectDecode p fi fn ft dt) s = decodeCommand p (dispatchRoutine p fi fn dt) s := by
  rw [selectDecode_eq, dispatchRoutine]
  split_ifs <;> rfl

/-- Settles O50: a `DECODE` word decodes to the mode decoder's choice, and that choice runs as the dispatch says. -/
theorem everyEngineDispatchesByItsOwnCodes : Obligations.EveryEngineDispatchesByItsOwnCodes := by
  intro p fi fn ft dt
  have hd := decodeWith_wordD p fi fn ft dt
  refine ⟨by rw [hd, selectDecode_eq], fun s => ?_⟩
  rw [stepWith_presentWord hd, execWith_selectDecode]

/-! ## What a `DECODE` leaves (R150, R151) -/

/-- The result and the state of the mode routine of a `DECODE`, run after the copy-in (R150 to R155, R170, R171, R190,
R200). A command that is no `DECODE` has no routine; it stands here with the pass-through. -/
def afterDecode (p : Params) (i : Instr) (s : State) : Bool × State :=
  match i with
  | .decodeHT _ _ _ _ => (true, { copiedIn p s with
      trace := s.trace ++ (blockTrace p .ht1 (channel 9 0 (window p s)) ++
        blockTrace p .ht2 (channel 9 9 (window p s))) })
  | .decodeDFR _ _ _ => (true, { copiedIn p s with
      trace := s.trace ++ (blockTrace p .dfr1 (channel 9 0 (window p s)) ++
        blockTrace p .dfr2 (channel 9 9 (window p s))) })
  | .decodeVD1 _ _ _ => (true, { copiedIn p s with trace := s.trace ++ blockTrace p .vd1 (channel 9 0 (window p s)) })
  | .decodeVD2 _ fn _ => decodeVD2Channel p fn (channel 5 0 (window p s)) (copiedIn p s)
  | _ => (true, copiedIn p s)

/-- Every `DECODE` of a frame that is long enough completes (R150). -/
theorem execWith_decode {p : Params} {i : Instr} {s : State} (hi : i.isDecode = true)
    (hl : frameLongEnough p s = true) :
    execWith p i s = .next (setResult (afterDecode p i s).1 (afterDecode p i s).2) := by
  cases i with
  | decodeHT => exact decodeCommand_eq hl (decodeTwoHalves_copiedIn p .ht1 .ht2 s)
  | decodeDFR => exact decodeCommand_eq hl (decodeTwoHalves_copiedIn p .dfr1 .dfr2 s)
  | decodeVD1 => exact decodeCommand_eq hl (decodeVD1_copiedIn p s)
  | decodeVD2 fi fn ft => exact decodeCommand_eq hl (decodeVD2_copiedIn p fn s)
  | decodeVFR => exact decodeCommand_eq (r := decodeVFR) (q := (true, copiedIn p s)) hl rfl
  | encode | setUplink | setDownlink | getSource | getDest => cases hi

/-- Every `DECODE` of a frame that is too short is refused (R262). -/
theorem execWith_decode_short {p : Params} {i : Instr} {s : State} (hi : i.isDecode = true)
    (hl : frameLongEnough p s = false) : execWith p i s = .refused .frameTooShort := by
  cases i with
  | decodeHT | decodeVD1 | decodeDFR | decodeVD2 | decodeVFR => rw [execWith, decodeCommand_short hl]
  | encode | setUplink | setDownlink | getSource | getDest => cases hi

/-- What V/D Mode 2 leaves is the stored and traced state, with or without a written-back channel (R209). -/
theorem decodeVD2Channel_cases (p : Params) (fn : BitVec 3) (dch : List Byte) (s : State) :
    (∃ W, decodeVD2Channel p fn dch s = (true, insert25 (reencode p W) (vd2Stored p fn dch s))) ∨
      decodeVD2Channel p fn dch s = (false, vd2Stored p fn dch s) := by
  rw [decodeVD2Channel_eq]
  split
  · exact .inl ⟨_, rfl⟩
  · exact .inr rfl

/-- A `DECODE` leaves `PAYLOAD_VALID` 1 and the frame's length as it was (R25, R58). -/
theorem afterDecode_payloadValid_frameLen (p : Params) (i : Instr) (s : State) :
    (afterDecode p i s).2.payloadValid = true ∧ (afterDecode p i s).2.frameLen = s.frameLen := by
  cases i with
  | decodeVD2 fi fn ft =>
    rcases decodeVD2Channel_cases p fn (channel 5 0 (window p s)) (copiedIn p s) with ⟨W, e⟩ | e <;>
      simp [afterDecode, e, vd2Stored_eq]
  | _ => exact ⟨rfl, rfl⟩

/-! ## What a command that completes can have done -/

/-- All that a command which completes can have done (R20, R150, R157, R240 to R244). -/
theorem execWith_next_cases {p : Params} {i : Instr} {s t : State} (h : execWith p i s = .next t) :
    (i.isDecode = true ∧ frameLongEnough p s = true ∧ t = setResult (afterDecode p i s).1 (afterDecode p i s).2) ∨
    (i = .encode ∧ encodeCommand p s = .next t) ∨
    (∃ len, i = .setUplink len ∧ t = s.setSlot .uplink (some (pad10 p (csinBytes s) len))) ∨
    (∃ len, i = .setDownlink len ∧ t = s.setSlot .downlink (some (pad10 p (csinBytes s) len))) ∨
    (i = .getSource ∧ t = takeMailbox .source s) ∨
    (i = .getDest ∧ t = takeMailbox .dest s) := by
  by_cases hd : i.isDecode = true
  · cases hl : frameLongEnough p s with
    | true =>
      rw [execWith_decode hd hl] at h
      cases h
      exact .inl ⟨hd, rfl, rfl⟩
    | false =>
      rw [execWith_decode_short hd hl] at h
      cases h
  · cases i with
    | encode => exact .inr (.inl ⟨rfl, h⟩)
    | setUplink len =>
      rw [execWith, setCallsign_next] at h
      cases h
      exact .inr (.inr (.inl ⟨len, rfl, rfl⟩))
    | setDownlink len =>
      rw [execWith, setCallsign_next] at h
      cases h
      exact .inr (.inr (.inr (.inl ⟨len, rfl, rfl⟩)))
    | getSource => cases h; exact .inr (.inr (.inr (.inr (.inl ⟨rfl, rfl⟩))))
    | getDest => cases h; exact .inr (.inr (.inr (.inr (.inr ⟨rfl, rfl⟩))))
    | decodeHT | decodeVD1 | decodeDFR | decodeVD2 | decodeVFR => exact absurd rfl hd

/-! ## Frames of `FRAME_LEN` bytes -/

/-- A frame of `FRAME_LEN` bytes holds the payload region, by the constraint of R5. -/
theorem frameLongEnough_of_frameLen_eq {p : Params} {s : State} (h : s.frameLen = p.frameLen) :
    frameLongEnough p s = true := by
  rw [frameLongEnough_iff, h]
  exact p.frameFits

/-- With a frame that is long enough no command is refused as `FrameTooShort` (R262). -/
theorem execWith_ne_frameTooShort {p : Params} {s : State} (hl : frameLongEnough p s = true) (i : Instr) :
    execWith p i s ≠ .refused .frameTooShort := by
  intro h
  by_cases hd : i.isDecode = true
  · rw [execWith_decode hd hl] at h
    cases h
  · cases i with
    | encode =>
      simp only [execWith, encodeCommand, hl, if_true] at h
      split at h
      · split at h <;> cases h
      · cases h
    | setUplink len | setDownlink len => rw [execWith, setCallsign_next] at h; cases h
    | getSource | getDest => cases h
    | decodeHT | decodeVD1 | decodeDFR | decodeVD2 | decodeVFR => exact hd rfl

/-- Settles O53: by R5's constraint a frame of `FRAME_LEN` bytes is long enough, and every `DECODE` of such a frame
completes. -/
theorem frameOfFrameLenIsNeverTooShort : Obligations.FrameOfFrameLenIsNeverTooShort := by
  intro p
  refine ⟨resetWith_frameLen p, fun i s hs => ?_⟩
  have hl : frameLongEnough p s = true := frameLongEnough_of_frameLen_eq hs
  refine ⟨execWith_ne_frameTooShort hl i, fun hi => ⟨_, execWith_decode hi hl, ?_⟩⟩
  obtain ⟨hv, hlen⟩ := afterDecode_payloadValid_frameLen p i s
  exact ⟨hv, hlen.trans hs⟩

/-! ## The machine as an engine -/

/-- Settles O23: each arm of `exec` is the arm of `execWith` at the machine's parameters. -/
theorem execIsTheParametricEngine : Obligations.ExecIsTheParametricEngine := by
  intro i s
  cases i <;> rfl

/-- Settles O49: the decoder, the reset and the well-formedness are defined so; the step is the one loop over the host
events with `exec`, which is `execWith` at the machine's parameters. -/
theorem machineIsTheParametricEngine : Obligations.MachineIsTheParametricEngine := by
  have hexec : exec = execWith params := funext fun i => funext (execIsTheParametricEngine i)
  have hdecode : decode = decodeWith params := rfl
  refine ⟨fun w => rfl, fun s => ?_, rfl, fun i => rfl⟩
  rw [step, stepWith, hexec, hdecode]

end Sys2Proof.Machine
end

section
/-! The invariant of the states of an engine of any parameter set (R25, R35, R50, R136, R159): every state operation keeps
it, so every step does. -/

namespace Sys2Proof.Machine

/-! ## Each state operation keeps the invariant -/

/-- The invariant speaks of the memories, the frame's length, `PAYLOAD_VALID` and the trace alone. -/
theorem State.Inv.congr {s t : State} (h : s.Inv) (hm : ∀ sp, t.mem sp = s.mem sp) (hl : t.frameLen = s.frameLen)
    (hv : t.payloadValid = s.payloadValid) (ht : ∀ e ∈ t.trace, e.bytes.length = e.tag.blockLen) : t.Inv where
  memoryWf sp := by
    have hs : t.size sp = s.size sp := by
      cases sp with
      | frame => exact hl
      | payload | csin | csout => rfl
    rw [hm, hs]
    exact h.memoryWf sp
  payloadFilled hv' k hk := by
    rw [byte_payload_congr (hm .payload)]
    exact h.payloadFilled (hv.symm.trans hv') k hk
  payloadEmpty hv' := (hm .payload).trans (h.payloadEmpty (hv.symm.trans hv'))
  traceSizes := ht

theorem State.Inv.setPending {s : State} (h : s.Inv) (evs : List HostEvent) : ({ s with pending := evs } : State).Inv :=
  h.congr (fun sp => by cases sp <;> rfl) rfl rfl h.traceSizes

theorem State.Inv.setResult {s : State} (h : s.Inv) (b : Bool) : (setResult b s).Inv :=
  h.congr (setResult_mem b s) rfl rfl h.traceSizes

theorem State.Inv.setSlot {s : State} (h : s.Inv) (sl : Slot) (v : Option Callsign) : (s.setSlot sl v).Inv :=
  h.congr (setSlot_mem s sl v) (setSlot_frameLen s sl v) (setSlot_payloadValid s sl v)
    (by rw [setSlot_trace]; exact h.traceSizes)

/-- Appending events of the right size (R32, R136). -/
theorem State.Inv.appendTrace {s : State} (h : s.Inv) {events : List TraceEvent}
    (he : ∀ e ∈ events, e.bytes.length = e.tag.blockLen) : ({ s with trace := s.trace ++ events } : State).Inv :=
  h.congr (fun sp => by cases sp <;> rfl) rfl rfl fun e hm => (List.mem_append.1 hm).elim (h.traceSizes e) (he e)

/-- Writing one of the host's buffers inside its space (R50, R61). -/
theorem State.Inv.memWrite {s : State} (h : s.Inv) {sp : Space} (hsp : sp ≠ .payload) {a : Nat} {v : List Byte}
    (hb : a + v.length ≤ s.size sp) : (memWrite sp a v s).Inv where
  memoryWf sp' := memWrite_wf (h.memoryWf sp') (.inr hb)
  payloadFilled hv k hk := by
    rw [byte_memWrite_outside _ _ _ _ _ _ (.inl hsp.symm)]
    exact h.payloadFilled (by simpa using hv) k hk
  payloadEmpty hv := (memWrite_mem_ne sp a v s .payload hsp.symm).trans (h.payloadEmpty (by simpa using hv))
  traceSizes := by rw [memWrite_trace]; exact h.traceSizes

/-- The copy-in fills `PAYLOAD` whatever it held (R151). -/
theorem State.Inv.copiedIn {s : State} (h : s.Inv) (p : Params) : (copiedIn p s).Inv where
  memoryWf sp := by
    have hw := memWrite_wf (sp := .payload) (a := 0) (v := window p s) (h.memoryWf sp) (.inr (by simp [State.size]))
    cases sp <;> exact hw
  payloadFilled _ k hk := by
    rw [copiedIn_payload_byte p s k hk, List.getElem?_eq_getElem (by simpa using hk)]
    rfl
  payloadEmpty hv := nomatch hv
  traceSizes := h.traceSizes

/-- `Insert25` writes inside `PAYLOAD` (R61, R119). -/
theorem insert25_memory_wf (d : List Byte) {s : State} {sp : Space} (h : Memory.wf (unlisted sp) (s.size sp) (s.mem sp)) :
    Memory.wf (unlisted sp) ((insert25 d s).size sp) ((insert25 d s).mem sp) := by
  refine List.foldlRecOn (motive := fun t : State => Memory.wf (unlisted sp) (t.size sp) (t.mem sp)) _ _ h ?_
  intro t ht g hg
  have hg : g ≤ 4 := by
    simp only [List.mem_cons, List.not_mem_nil, or_false] at hg
    omega
  have hlen : ((d.drop (5 * g)).take 5).length ≤ 5 := List.length_take_le ..
  exact memWrite_wf ht (.inr (by simp only [State.size]; omega))

/-- The write-back of a coded channel keeps a filled `PAYLOAD` filled (R119, R212). -/
theorem State.Inv.insert25 {s : State} (h : s.Inv) (hv : s.payloadValid = true) {d : List Byte} (hd : d.length = 25) :
    (insert25 d s).Inv where
  memoryWf sp := insert25_memory_wf d (h.memoryWf sp)
  payloadFilled _ k hk := by
    rw [insert25_payload_byte d s hd]
    split
    · rw [List.getElem?_eq_getElem (by rw [hd]; omega)]
      rfl
    · exact h.payloadFilled hv k hk
  payloadEmpty hv' := by rw [insert25_payloadValid, hv] at hv'; cases hv'
  traceSizes := by rw [insert25_trace]; exact h.traceSizes

/-- The host may place any frame (R52). -/
theorem State.Inv.hostPlaceFrame {s : State} (h : s.Inv) (bytes : List Byte) : (hostPlaceFrame bytes s).Inv where
  memoryWf sp := by
    cases sp with
    | frame => exact placed_frame_wf bytes
    | payload => exact h.memoryWf .payload
    | csin => exact h.memoryWf .csin
    | csout => exact h.memoryWf .csout
  payloadFilled := h.payloadFilled
  payloadEmpty := h.payloadEmpty
  traceSizes := h.traceSizes

/-- A reset between commands empties `PAYLOAD` and the trace and leaves the host's buffers (R290, R35). -/
theorem State.Inv.resetEngine {s : State} (h : s.Inv) : (resetEngine s).Inv where
  memoryWf sp := by
    cases sp with
    | payload => exact wf_nil _ _
    | frame => exact h.memoryWf .frame
    | csin => exact h.memoryWf .csin
    | csout => exact h.memoryWf .csout
  payloadFilled hv := nomatch hv
  payloadEmpty _ := rfl
  traceSizes _ he := nomatch he

/-- The reset state has the invariant, whatever the parameters (R35). -/
theorem resetWith_inv (p : Params) : (State.resetWith p).Inv where
  memoryWf := resetWith_memory_wf p
  payloadFilled hv := nomatch hv
  payloadEmpty _ := rfl
  traceSizes _ he := nomatch he

/-! ## Each command keeps the invariant -/

/-- The event of a 20-byte block has the size of its block (R136, R137). -/
theorem blockTrace_sizes (p : Params) {tag : TraceTag} (ht : tag.blockLen = 20) (dch : List Byte) :
    ∀ e ∈ blockTrace p tag dch, e.bytes.length = e.tag.blockLen := by
  intro e he
  unfold blockTrace at he
  split at he
  · rw [List.mem_singleton.1 he, whiten_length, ht]
  · cases he

/-- The store and the trace of V/D Mode 2 keep the invariant (R204 to R206). -/
theorem State.Inv.vd2Stored {s : State} (h : s.Inv) (p : Params) (fn : BitVec 3) (dch : List Byte) :
    (vd2Stored p fn dch s).Inv := by
  unfold Machine.vd2Stored
  dsimp only
  split
  · have htrace : (emitTrace p (.vd2 fn) (whiten p ((decodedBlock10 p dch).take 10) 10) s).Inv := by
      refine h.appendTrace fun e he => ?_
      split at he
      · rw [List.mem_singleton.1 he, whiten_length]; rfl
      · cases he
    unfold storePlaintext
    split
    · exact htrace.setSlot _ _
    · exact htrace
  · exact h

/-- V/D Mode 2 keeps the invariant once `PAYLOAD` is filled (R200). -/
theorem State.Inv.decodeVD2Channel {s : State} (h : s.Inv) (hv : s.payloadValid = true) (p : Params) (fn : BitVec 3)
    (dch : List Byte) : (decodeVD2Channel p fn dch s).2.Inv := by
  have hstored := h.vd2Stored p fn dch
  have hvalid : (Machine.vd2Stored p fn dch s).payloadValid = true := by
    unfold Machine.vd2Stored
    dsimp only
    split
    · rw [storePlaintext_eq]; exact hv
    · exact hv
  rcases decodeVD2Channel_cases p fn dch s with ⟨W, e⟩ | e <;> rw [e]
  · exact hstored.insert25 hvalid (reencode_length p W)
  · exact hstored

/-- What a mode routine leaves has the invariant (R150). -/
theorem State.Inv.afterDecode {s : State} (h : s.Inv) (p : Params) (i : Instr) : (afterDecode p i s).2.Inv := by
  have hc := h.copiedIn p
  cases i with
  | decodeHT | decodeDFR =>
    exact hc.appendTrace fun e he => (List.mem_append.1 he).elim (blockTrace_sizes p rfl _ e) (blockTrace_sizes p rfl _ e)
  | decodeVD1 => exact hc.appendTrace (blockTrace_sizes p rfl _)
  | decodeVD2 fi fn ft => exact hc.decodeVD2Channel rfl p fn _
  | decodeVFR | encode | setUplink | setDownlink | getSource | getDest => exact hc

/-- Taking a mailbox keeps the invariant (R243, R244). -/
theorem State.Inv.takeMailbox {s : State} (h : s.Inv) (sl : Slot) : (takeMailbox sl s).Inv := by
  cases hs : s.slot sl with
  | none =>
    rw [takeMailbox_none hs]
    exact h.setResult false
  | some c =>
    rw [takeMailbox_some hs]
    have hw : (writeCsout c s).Inv := h.memWrite (by decide) (by rw [c.size_eq]; exact le_refl _)
    exact (hw.setSlot sl none).setResult true

/-- A command that completes keeps the invariant. -/
theorem State.Inv.execWith {s t : State} (hs : s.Inv) {p : Params} {i : Instr} (h : execWith p i s = .next t) : t.Inv := by
  rcases execWith_next_cases h with
    ⟨-, -, rfl⟩ | ⟨-, he⟩ | ⟨len, -, rfl⟩ | ⟨len, -, rfl⟩ | ⟨-, rfl⟩ | ⟨-, rfl⟩
  · exact (hs.afterDecode p i).setResult _
  · obtain ⟨-, hl, v, hlen, -, rfl⟩ := encodeCommand_inv he
    exact hs.memWrite (by decide) (by rw [hlen]; exact frameLongEnough_iff.1 hl)
  · exact hs.setSlot _ _
  · exact hs.setSlot _ _
  · exact hs.takeMailbox .source
  · exact hs.takeMailbox .dest

/-! ## Each step keeps the invariant -/

/-- A step that answers a next state keeps the invariant, whatever the host's next event. -/
theorem State.Inv.stepWith {s t : State} (hs : s.Inv) {p : Params} (h : stepWith p s = .next t) : t.Inv := by
  obtain ⟨-, rfl⟩ | ⟨ev, rest, -, hev⟩ := performNext_inv h
  · exact hs
  · have hs' := hs.setPending rest
    rcases hev with ⟨w, i, -, -, hrun⟩ | ⟨bytes, -, rfl⟩ | ⟨sp, addr, bytes, hsp, hlen, rfl⟩ | ⟨-, rfl⟩
    · exact hs'.execWith hrun
    · exact hs'.hostPlaceFrame bytes
    · have hne : sp ≠ .payload := by rcases hsp with ⟨-, rfl⟩ | ⟨-, rfl⟩ <;> decide
      have hsize : ({ s with pending := rest } : State).size sp = s.size sp := by cases sp <;> rfl
      exact hs'.memWrite hne (hsize ▸ hlen)
    · exact hs'.resetEngine

/-- Settles O52: the reset state has the invariant, and each kind of step is made of operations that keep it. -/
theorem everyEngineKeepsTheInvariant : Obligations.EveryEngineKeepsTheInvariant :=
  fun p => ⟨resetWith_inv p, fun _ _ hs h => hs.stepWith h⟩

end Sys2Proof.Machine
end

section
/-! What a `DECODE` that completes leaves, field by field (R58, R150 to R155, R217), and when an `ENCODE` completes
(R157). -/

namespace Sys2Proof.Machine

/-! ## The next state of a `DECODE` -/

/-- The whitened block that a `DECODE` re-encodes into `PAYLOAD`, if there is one: V/D Mode 2 alone has one (R203, R207 to
R209). -/
def regeneratedBlock (p : Params) (i : Instr) (s : State) : Option (List Byte) :=
  match i with
  | .decodeVD2 _ fn _ => validBlock p (substitute fn s) (vd2Crc p s) (vd2Info p s)
  | _ => none

/-- `PAYLOAD` after a `DECODE`: the copied-in payload, its groups rewritten when a block is re-encoded (R151, R212). -/
def decodedPayload (p : Params) (i : Instr) (s : State) : Memory :=
  match regeneratedBlock p i s with
  | some W => (insert25 (reencode p W) (copiedIn p s)).payload
  | none => (copiedIn p s).payload

/-- The events a command appends to `TRACE` (R136): a `DECODE` one for each block that passes its CRC check, any other
command none. -/
def commandEvents (p : Params) (i : Instr) (s : State) : List TraceEvent :=
  match i with
  | .decodeHT _ _ _ _ => blockTrace p .ht1 (channel 9 0 (window p s)) ++ blockTrace p .ht2 (channel 9 9 (window p s))
  | .decodeDFR _ _ _ => blockTrace p .dfr1 (channel 9 0 (window p s)) ++ blockTrace p .dfr2 (channel 9 9 (window p s))
  | .decodeVD1 _ _ _ => blockTrace p .vd1 (channel 9 0 (window p s))
  | .decodeVD2 _ fn _ => if vd2Crc p s && p.traceEn then [⟨.vd2 fn, whiten p (vd2Info p s) 10⟩] else []
  | _ => []

/-- The state after a `DECODE` that completes: all it writes (R58). -/
def decoded (p : Params) (i : Instr) (s : State) : State :=
  { s with
    source := slotAfter p i s .source
    dest := slotAfter p i s .dest
    payload := decodedPayload p i s
    payloadValid := true
    result := resultAfter p i s
    trace := s.trace ++ commandEvents p i s }

/-- A valid 10-byte result exists when the CRC check succeeded or there is a substitute (R209). -/
theorem validBlock_isSome (p : Params) (sub : Option Callsign) (ok : Bool) (W : List Byte) :
    (validBlock p sub ok W).isSome = (ok || sub.isSome) := by
  cases sub <;> cases ok <;> rfl

/-- V/D Mode 2, run on the copied-in state, leaves the state `decoded` (R217). -/
theorem decodeVD2_eq_decoded (p : Params) (fi : BitVec 2) (fn ft : BitVec 3) (s : State) :
    setResult (decodeVD2Channel p fn (channel 5 0 (window p s)) (copiedIn p s)).1
      (decodeVD2Channel p fn (channel 5 0 (window p s)) (copiedIn p s)).2 = decoded p (.decodeVD2 fi fn ft) s := by
  have hsub : substitute fn (copiedIn p s) = substitute fn s := substitute_congr rfl rfl
  have hblock : validBlock p (substitute fn s) (crcCheck p (decodedBlock10 p (channel 5 0 (window p s))) 10)
      ((decodedBlock10 p (channel 5 0 (window p s))).take 10) = regeneratedBlock p (.decodeVD2 fi fn ft) s := rfl
  have hresult : resultAfter p (.decodeVD2 fi fn ft) s = (regeneratedBlock p (.decodeVD2 fi fn ft) s).isSome :=
    (validBlock_isSome p (substitute fn s) (vd2Crc p s) (vd2Info p s)).symm
  rw [decodeVD2Channel_eq, hsub, hblock, vd2Stored_eq, decoded, hresult, decodedPayload]
  cases regeneratedBlock p (.decodeVD2 fi fn ft) s with
  | none => rfl
  | some W =>
    dsimp only
    rw [insert25_record]
    rfl

/-- A `DECODE` of a frame that is long enough leaves the state `decoded`. -/
theorem execWith_decode_eq_decoded {p : Params} {i : Instr} {s : State} (hi : i.isDecode = true)
    (hl : frameLongEnough p s = true) : execWith p i s = .next (decoded p i s) := by
  rw [execWith_decode hi hl]
  cases i with
  | decodeVD2 fi fn ft => exact congrArg _ (decodeVD2_eq_decoded p fi fn ft s)
  | decodeHT | decodeVD1 | decodeDFR => rfl
  | decodeVFR fi fn ft =>
    have hevents : commandEvents p (.decodeVFR fi fn ft) s = [] := rfl
    rw [decoded, hevents, List.append_nil]
    rfl
  | encode | setUplink | setDownlink | getSource | getDest => cases hi

/-- Every byte of `PAYLOAD` after a `DECODE`, in terms of the frame and of the block that is re-encoded (R119, R151). -/
theorem decoded_payload_byte (p : Params) (i : Instr) (s : State) {k : Nat} (hk : k < 90) :
    (decoded p i s).byte .payload k =
      match regeneratedBlock p i s with
      | some W => if k % 18 < 5 then (reencode p W)[5 * (k / 18) + k % 18]? else (window p s)[k]?
      | none => (window p s)[k]? := by
  have hpay : (decoded p i s).payload = decodedPayload p i s := rfl
  unfold decodedPayload at hpay
  cases hb : regeneratedBlock p i s with
  | none =>
    rw [hb] at hpay
    exact (byte_payload_congr hpay k).trans (copiedIn_payload_byte p s k hk)
  | some W =>
    rw [hb] at hpay
    rw [byte_payload_congr hpay k, insert25_payload_byte _ _ (reencode_length p W), copiedIn_payload_byte p s k hk]
    simp only [hk, true_and]

/-! ## What every command that completes leaves -/

/-- When `ENCODE` completes, and all that it does then (R157). -/
theorem encodeCommand_eq_next_iff {p : Params} {s t : State} :
    encodeCommand p s = .next t ↔ s.payloadValid = true ∧ frameLongEnough p s = true ∧
      ∃ v, v.length = 90 ∧ (∀ k < 90, s.byte .payload k = v[k]?) ∧ t = memWrite .frame p.payloadOff v s := by
  refine ⟨encodeCommand_inv, ?_⟩
  rintro ⟨hv, hl, v, hlen, hbytes, rfl⟩
  have hread : memRead .payload 0 90 s = .ok v := memRead_eq_ok.2 ⟨hlen, by simpa using hbytes⟩
  simp only [encodeCommand, hv, hl, if_true, hread, writeFramePayload]

/-- The machine's commands are those of the engine at the machine's parameters, in the form that rewrites. -/
theorem exec_eq_execWith (i : Instr) (s : State) : exec i s = execWith params i s := execIsTheParametricEngine i s

/-- All that a completing `DECODE` does (R150). -/
theorem execWith_decode_inv {p : Params} {i : Instr} {s t : State} (hi : i.isDecode = true)
    (h : execWith p i s = .next t) : frameLongEnough p s = true ∧ t = decoded p i s := by
  cases hl : frameLongEnough p s with
  | true =>
    rw [execWith_decode_eq_decoded hi hl] at h
    cases h
    exact ⟨rfl, rfl⟩
  | false =>
    rw [execWith_decode_short hi hl] at h
    cases h

/-- All that a command which completes can have done, a `DECODE` field by field. -/
theorem execWith_next_cases_decoded {p : Params} {i : Instr} {s t : State} (h : execWith p i s = .next t) :
    (i.isDecode = true ∧ frameLongEnough p s = true ∧ t = decoded p i s) ∨
    (i = .encode ∧ encodeCommand p s = .next t) ∨
    (∃ len, i = .setUplink len ∧ t = s.setSlot .uplink (some (pad10 p (csinBytes s) len))) ∨
    (∃ len, i = .setDownlink len ∧ t = s.setSlot .downlink (some (pad10 p (csinBytes s) len))) ∨
    (i = .getSource ∧ t = takeMailbox .source s) ∨
    (i = .getDest ∧ t = takeMailbox .dest s) := by
  obtain ⟨hi, -, -⟩ | hother := execWith_next_cases h
  · exact .inl ⟨hi, execWith_decode_inv hi h⟩
  · exact .inr hother

/-- A `GET` empties its mailbox and no other slot (R243, R244). -/
theorem takeMailbox_slot (sl sl' : Slot) (s : State) :
    (takeMailbox sl s).slot sl' = if sl' = sl then none else s.slot sl' := by
  cases hc : s.slot sl with
  | none =>
    rw [takeMailbox_none hc, setResult_slot]
    split
    · rwa [‹sl' = sl›]
    · rfl
  | some c =>
    rw [takeMailbox_some hc, setResult_slot]
    split
    · rw [‹sl' = sl›, setSlot_slot]
    · rw [setSlot_slot_ne _ _ _ _ ‹_›, writeCsout, memWrite_slot]

/-- A `GET` appends nothing to `TRACE` (R58). -/
theorem takeMailbox_trace (sl : Slot) (s : State) : (takeMailbox sl s).trace = s.trace := by
  cases hc : s.slot sl with
  | none => rw [takeMailbox_none hc, setResult_trace]
  | some c => rw [takeMailbox_some hc, setResult_trace, setSlot_trace, writeCsout, memWrite_trace]

/-- The slots after a `DECODE` are those of the transition table (R23). -/
theorem decoded_slot {p : Params} {i : Instr} {s : State} (hi : i.isDecode = true) (sl : Slot) :
    (decoded p i s).slot sl = slotAfter p i s sl := by
  cases sl with
  | source | dest => rfl
  | uplink | downlink =>
    cases i with
    | decodeHT | decodeVD1 | decodeDFR | decodeVD2 | decodeVFR => rfl
    | encode | setUplink | setDownlink | getSource | getDest => cases hi

/-- Every command that completes leaves each slot as the transition table says (R23). -/
theorem execWith_slot {p : Params} {i : Instr} {s t : State} (h : execWith p i s = .next t) (sl : Slot) :
    t.slot sl = slotAfter p i s sl := by
  rcases execWith_next_cases_decoded h with
    ⟨hi, -, rfl⟩ | ⟨rfl, he⟩ | ⟨len, rfl, rfl⟩ | ⟨len, rfl, rfl⟩ | ⟨rfl, rfl⟩ | ⟨rfl, rfl⟩
  · exact decoded_slot hi sl
  · obtain ⟨-, -, v, -, -, rfl⟩ := encodeCommand_inv he
    rw [memWrite_slot]
    cases sl <;> rfl
  · cases sl <;> rfl
  · cases sl <;> rfl
  · rw [takeMailbox_slot]
    cases sl <;> rfl
  · rw [takeMailbox_slot]
    cases sl <;> rfl

/-- Every command that completes appends exactly its events to `TRACE` (R32, R136). -/
theorem execWith_trace {p : Params} {i : Instr} {s t : State} (h : execWith p i s = .next t) :
    t.trace = s.trace ++ commandEvents p i s := by
  rcases execWith_next_cases_decoded h with
    ⟨-, -, rfl⟩ | ⟨rfl, he⟩ | ⟨len, rfl, rfl⟩ | ⟨len, rfl, rfl⟩ | ⟨rfl, rfl⟩ | ⟨rfl, rfl⟩
  · rfl
  · obtain ⟨-, -, v, -, -, rfl⟩ := encodeCommand_inv he
    rw [memWrite_trace]
    exact (List.append_nil _).symm
  · exact (List.append_nil _).symm
  · exact (List.append_nil _).symm
  · rw [takeMailbox_trace]
    exact (List.append_nil _).symm
  · rw [takeMailbox_trace]
    exact (List.append_nil _).symm

/-- A disabled trace gets no event of a 20-byte block (R136, R137). -/
theorem blockTrace_eq_nil {p : Params} (hp : p.traceEn = false) (tag : TraceTag) (dch : List Byte) :
    blockTrace p tag dch = [] := by
  simp [blockTrace, hp]

/-- A disabled trace gets no event (R136). -/
theorem commandEvents_eq_nil {p : Params} (hp : p.traceEn = false) (i : Instr) (s : State) :
    commandEvents p i s = [] := by
  cases i with
  | decodeHT | decodeDFR | decodeVD1 => simp only [commandEvents, blockTrace_eq_nil hp, List.append_nil]
  | decodeVD2 => simp [commandEvents, hp]
  | decodeVFR | encode | setUplink | setDownlink | getSource | getDest => rfl

end Sys2Proof.Machine
end

section
/-! The state right after reset (R35), the step on a command word (R28), and the life cycle of the four callsign slots
(R20 to R23). -/

namespace Sys2Proof.Machine

/-! ## Reset and the step -/

/-- Right after reset no byte of `PAYLOAD` has a value (R35; log 13). -/
theorem resetWith_payload_byte (p : Params) (a : Nat) : (State.resetWith p).byte .payload a = none := by
  unfold State.byte
  split <;> rfl

/-- Settles O1: every field but `PAYLOAD` is as R35 says by definition, and an empty `PAYLOAD` has no value to read. -/
theorem resetLeavesTheSpecifiedState : Obligations.ResetLeavesTheSpecifiedState :=
  ⟨rfl, rfl, rfl, rfl, resetWith_payload_byte params, rfl, rfl, rfl⟩

/-- Settles O2: the reset state of every engine has the invariant. -/
theorem resetSatisfiesTheInvariant : Obligations.ResetSatisfiesTheInvariant := resetWith_inv params

/-- Settles O6: a state whose next event is a command word is one that the word was presented to. -/
theorem stepRunsTheDecodedCommand : Obligations.StepRunsTheDecodedCommand := by
  intro s w rest i hp hd
  have hs : s = presentWord w { s with pending := rest } := by
    cases s
    cases hp
    rfl
  calc step s = stepWith params s := machineIsTheParametricEngine.2.1 s
    _ = stepWith params (presentWord w { s with pending := rest }) := congrArg _ hs
    _ = execWith params i { s with pending := rest } := stepWith_presentWord hd _
    _ = exec i { s with pending := rest } := (exec_eq_execWith i _).symm

/-! ## The slots (R20 to R23) -/

/-- What a `GET` of a full mailbox gives the host: `RESULT` 1 and the ten bytes in `CSOUT` (R243, R244). -/
theorem takeMailbox_output {sl : Slot} {s : State} {c : Callsign} (hc : s.slot sl = some c) :
    (takeMailbox sl s).result = true ∧ ∀ j < 10, (takeMailbox sl s).byte .csout j = c.bytes[j]? := by
  rw [takeMailbox_some hc]
  refine ⟨setResult_result .., fun j hj => ?_⟩
  rw [setResult_byte, setSlot_byte, writeCsout_byte c s hj]

/-- What a `GET` of an empty mailbox gives the host: `RESULT` 0 (R243, R244). -/
theorem takeMailbox_result_none {sl : Slot} {s : State} (hc : s.slot sl = none) : (takeMailbox sl s).result = false := by
  rw [takeMailbox_none hc, setResult_result]

/-- Settles O30: the table is that of every completing command; the outputs are those of `takeMailbox`. -/
theorem slotsFollowTheirLifeCycle : Obligations.SlotsFollowTheirLifeCycle := by
  refine ⟨fun i s t h => ⟨fun sl => ?_, ?_, ?_, ?_, ?_⟩, fun s sl => ⟨resetWith_slot params sl, by cases sl <;> rfl⟩⟩
  · rw [exec_eq_execWith] at h
    exact execWith_slot h sl
  · rintro rfl c hc
    cases h
    exact takeMailbox_output (sl := .dest) hc
  · rintro rfl hc
    cases h
    exact takeMailbox_result_none (sl := .dest) hc
  · rintro rfl c hc
    cases h
    exact takeMailbox_output (sl := .source) hc
  · rintro rfl hc
    cases h
    exact takeMailbox_result_none (sl := .source) hc

/-- The one slot a command may write, if any (R20 to R22). -/
def writtenSlot : Instr → Option Slot
  | .decodeVD2 _ fn _ => storeSlot fn
  | .setUplink _ => some .uplink
  | .setDownlink _ => some .downlink
  | .getSource => some .source
  | .getDest => some .dest
  | .decodeHT .. | .decodeVD1 .. | .decodeDFR .. | .decodeVFR .. | .encode => none

/-- A V/D Mode 2 frame is stored in a mailbox, never in a slot that a `SET` writes (R205, R206, R218). -/
theorem storeSlot_eq_some {fn : BitVec 3} {sl : Slot} (h : storeSlot fn = some sl) :
    (fn = 0 ∧ sl = .dest) ∨ (fn = 1 ∧ sl = .source) := by
  unfold storeSlot at h
  split_ifs at h with h0 h1 <;> cases h
  · exact .inl ⟨h0, rfl⟩
  · exact .inr ⟨h1, rfl⟩

/-- The transition table leaves every slot alone but the one the command may write (R20, R23). -/
theorem slotAfter_of_ne_writtenSlot {p : Params} {i : Instr} {s : State} {sl : Slot} (h : writtenSlot i ≠ some sl) :
    slotAfter p i s sl = s.slot sl := by
  cases i with
  | decodeVD2 fi fn ft =>
    cases sl with
    | uplink | downlink => rfl
    | source =>
      have hfn : fn ≠ 1 := by rintro rfl; exact h rfl
      simp only [slotAfter, hfn, false_and, if_false, State.slot]
    | dest =>
      have hfn : fn ≠ 0 := by rintro rfl; exact h rfl
      simp only [slotAfter, hfn, false_and, if_false, State.slot]
  | decodeHT | decodeVD1 | decodeDFR | decodeVFR | encode => cases sl <;> rfl
  | setUplink =>
    cases sl with
    | uplink => exact absurd rfl h
    | downlink | source | dest => rfl
  | setDownlink =>
    cases sl with
    | downlink => exact absurd rfl h
    | uplink | source | dest => rfl
  | getSource =>
    cases sl with
    | source => exact absurd rfl h
    | uplink | downlink | dest => rfl
  | getDest =>
    cases sl with
    | dest => exact absurd rfl h
    | uplink | downlink | source => rfl

/-- A slot that a completing command changed is the one it may write (R20, R23). -/
theorem writtenSlot_of_slot_ne {p : Params} {i : Instr} {s t : State} (h : execWith p i s = .next t) {sl : Slot}
    (hne : t.slot sl ≠ s.slot sl) : writtenSlot i = some sl := by
  by_contra hw
  exact hne ((execWith_slot h sl).trans (slotAfter_of_ne_writtenSlot hw))

/-- Settles O31: a command has at most one slot that it may write. -/
theorem atMostOneSlotChanges : Obligations.AtMostOneSlotChanges := by
  intro i s t h sl sl' hsl hsl'
  rw [exec_eq_execWith] at h
  exact Option.some.inj ((writtenSlot_of_slot_ne h hsl).symm.trans (writtenSlot_of_slot_ne h hsl'))

end Sys2Proof.Machine
end

section
/-! What cannot influence a command: the old `PAYLOAD`, `PAYLOAD_VALID` and `RESULT` a `DECODE` (R33, R220), `TRACE` any
command (R32), `UPLINK` and `DOWNLINK` any command but the V/D Mode 2 that repairs with them (R21, R207, R208). -/

namespace Sys2Proof.Machine

/-! ## The old `PAYLOAD`, `PAYLOAD_VALID` and `RESULT` -/

/-- A `DECODE` rewrites `PAYLOAD`, `PAYLOAD_VALID` and `RESULT` from the frame and the slots alone: two runs that differ in
their old values end alike, in every field but the cells of `PAYLOAD`. -/
theorem decoded_replace_payload (p : Params) {i : Instr} (hi : i.isDecode = true) (s : State) (m : Memory) (v r : Bool) :
    { decoded p i { s with payload := m, payloadValid := v, result := r } with payload := decodedPayload p i s } =
      decoded p i s := by
  cases i with
  | decodeHT | decodeVD1 | decodeDFR | decodeVD2 | decodeVFR => rfl
  | encode | setUplink | setDownlink | getSource | getDest => cases hi

/-- The block that is re-encoded comes from the frame and the slots alone. -/
theorem regeneratedBlock_replace_payload (p : Params) (i : Instr) (s : State) (m : Memory) (v r : Bool) :
    regeneratedBlock p i { s with payload := m, payloadValid := v, result := r } = regeneratedBlock p i s := by
  cases i <;> rfl

/-- Settles O42: both runs leave the state `decoded`, whose fields and bytes do not see the old values. -/
theorem decodeForgetsTheOldPayload : Obligations.DecodeForgetsTheOldPayload := by
  intro i s t m v r hi h
  rw [exec_eq_execWith] at h
  obtain ⟨hl, rfl⟩ := execWith_decode_inv hi h
  have hl' : frameLongEnough params { s with payload := m, payloadValid := v, result := r } = true := hl
  have hrun := (exec_eq_execWith i _).trans (execWith_decode_eq_decoded hi hl')
  refine ⟨_, hrun, decoded_replace_payload params hi s m v r, fun k hk => ?_⟩
  have hwindow : window params { s with payload := m, payloadValid := v, result := r } = window params s := rfl
  rw [decoded_payload_byte _ _ _ hk, decoded_payload_byte _ _ _ hk, regeneratedBlock_replace_payload, hwindow]

/-! ## `UPLINK`, `DOWNLINK` and `TRACE` -/

/-- The state with other contents of `UPLINK`, `DOWNLINK` and `TRACE`. -/
def State.withSetSlotsAndTrace (s : State) (u d : Option Callsign) (log : List TraceEvent) : State :=
  { s with uplink := u, downlink := d, trace := log }

section
variable (p : Params) (on : Bool) (i : Instr) (s : State) (u d : Option Callsign) (log : List TraceEvent)

/-- The table sees a slot only where it says what becomes of that slot (R23). -/
theorem slotAfter_withSetSlotsAndTrace {sl : Slot} (hsl : (s.withSetSlotsAndTrace u d log).slot sl = s.slot sl) :
    slotAfter { p with traceEn := on } i (s.withSetSlotsAndTrace u d log) sl = slotAfter p i s sl := by
  by_cases hw : writtenSlot i = some sl
  · cases i with
    | decodeVD2 fi fn ft => rcases storeSlot_eq_some hw with ⟨-, rfl⟩ | ⟨-, rfl⟩ <;> rfl
    | setUplink | setDownlink | getSource | getDest => cases hw; rfl
    | decodeHT | decodeVD1 | decodeDFR | decodeVFR | encode => cases hw
  · rw [slotAfter_of_ne_writtenSlot hw, slotAfter_of_ne_writtenSlot hw, hsl]

/-- The events of a command come from the frame alone (R136). -/
theorem commandEvents_withSetSlotsAndTrace :
    commandEvents p i (s.withSetSlotsAndTrace u d log) = commandEvents p i s := by
  cases i <;> rfl

/-- A mailbox is taken without a look at `UPLINK`, `DOWNLINK` and `TRACE`. -/
theorem takeMailbox_withSetSlotsAndTrace {sl : Slot} (hsl : sl = .source ∨ sl = .dest) :
    takeMailbox sl (s.withSetSlotsAndTrace u d log) = (takeMailbox sl s).withSetSlotsAndTrace u d log := by
  have hsame : (s.withSetSlotsAndTrace u d log).slot sl = s.slot sl := by rcases hsl with rfl | rfl <;> rfl
  cases hc : s.slot sl with
  | none =>
    rw [takeMailbox_none hc, takeMailbox_none (hsame.trans hc)]
    rfl
  | some c =>
    rw [takeMailbox_some hc, takeMailbox_some (hsame.trans hc)]
    rcases hsl with rfl | rfl <;> rfl

section
variable {i s u d log}
variable (hsub : ∀ fi fn ft, i = .decodeVD2 fi fn ft →
  substitute fn (s.withSetSlotsAndTrace u d log) = substitute fn s)
include hsub

theorem regeneratedBlock_withSetSlotsAndTrace :
    regeneratedBlock { p with traceEn := on } i (s.withSetSlotsAndTrace u d log) = regeneratedBlock p i s := by
  cases i with
  | decodeVD2 fi fn ft =>
    rw [regeneratedBlock, regeneratedBlock, hsub fi fn ft rfl]
    rfl
  | _ => rfl

theorem decodedPayload_withSetSlotsAndTrace :
    decodedPayload { p with traceEn := on } i (s.withSetSlotsAndTrace u d log) = decodedPayload p i s := by
  unfold decodedPayload
  rw [regeneratedBlock_withSetSlotsAndTrace p on hsub]
  cases regeneratedBlock p i s <;> rfl

theorem resultAfter_withSetSlotsAndTrace :
    resultAfter { p with traceEn := on } i (s.withSetSlotsAndTrace u d log) = resultAfter p i s := by
  cases i with
  | decodeVD2 fi fn ft =>
    rw [resultAfter, resultAfter, hsub fi fn ft rfl]
    rfl
  | _ => rfl

/-- A `DECODE` whose repair finds the same substitute leaves the same in every field but the three replaced ones. -/
theorem decoded_withSetSlotsAndTrace :
    decoded { p with traceEn := on } i (s.withSetSlotsAndTrace u d log) =
      (decoded p i s).withSetSlotsAndTrace u d (log ++ commandEvents { p with traceEn := on } i s) := by
  rw [decoded, decodedPayload_withSetSlotsAndTrace p on hsub, resultAfter_withSetSlotsAndTrace p on hsub,
    slotAfter_withSetSlotsAndTrace (sl := .source) _ _ _ _ _ _ _ rfl,
    slotAfter_withSetSlotsAndTrace (sl := .dest) _ _ _ _ _ _ _ rfl, commandEvents_withSetSlotsAndTrace]
  rfl

/-- A command whose repair, if it is one, finds the same substitute completes on other contents of `UPLINK`, `DOWNLINK`
and `TRACE` too, and leaves the same in every field but those three. -/
theorem execWith_withSetSlotsAndTrace {t : State} (h : execWith p i s = .next t) :
    ∃ t', execWith { p with traceEn := on } i (s.withSetSlotsAndTrace u d log) = .next t' ∧
      t'.withSetSlotsAndTrace t.uplink t.downlink t.trace = t := by
  rcases execWith_next_cases_decoded h with
    ⟨hi, hl, rfl⟩ | ⟨rfl, he⟩ | ⟨len, rfl, rfl⟩ | ⟨len, rfl, rfl⟩ | ⟨rfl, rfl⟩ | ⟨rfl, rfl⟩
  · have hl' : frameLongEnough { p with traceEn := on } (s.withSetSlotsAndTrace u d log) = true := hl
    refine ⟨_, execWith_decode_eq_decoded hi hl', ?_⟩
    rw [decoded_withSetSlotsAndTrace p on hsub]
    rfl
  · obtain ⟨hv, hl, v, hlen, hbytes, rfl⟩ := encodeCommand_inv he
    exact ⟨_, encodeCommand_eq_next_iff.2 ⟨hv, hl, v, hlen, hbytes, rfl⟩, rfl⟩
  · exact ⟨_, setCallsign_next .., rfl⟩
  · exact ⟨_, setCallsign_next .., rfl⟩
  · refine ⟨_, rfl, ?_⟩
    rw [takeMailbox_withSetSlotsAndTrace _ _ _ _ (.inl rfl)]
    rfl
  · refine ⟨_, rfl, ?_⟩
    rw [takeMailbox_withSetSlotsAndTrace _ _ _ _ (.inr rfl)]
    rfl

end

end

/-- A slot that stood the same before two such runs stands the same after them. -/
theorem slot_eq_of_withSetSlotsAndTrace {p : Params} {on : Bool} {i : Instr} {s t t' : State} {u d : Option Callsign}
    {log : List TraceEvent} (h : execWith p i s = .next t)
    (hrun : execWith { p with traceEn := on } i (s.withSetSlotsAndTrace u d log) = .next t') {sl : Slot}
    (hsl : (s.withSetSlotsAndTrace u d log).slot sl = s.slot sl) : t.slot sl = t'.slot sl := by
  rw [execWith_slot h, execWith_slot hrun, slotAfter_withSetSlotsAndTrace p on i s u d log hsl]

/-- The substitute of a block is the same when the slot that `fn` selects is (R207, R208). -/
theorem substitute_withSetSlotsAndTrace {fn : BitVec 3} {s : State} {u d : Option Callsign} {log : List TraceEvent}
    (hd : fn = 2 → d = s.downlink) (hu : fn = 3 → u = s.uplink) :
    substitute fn (s.withSetSlotsAndTrace u d log) = substitute fn s := by
  rw [substitute_eq, substitute_eq]
  split_ifs with h2 h3
  · exact hd h2
  · exact hu h3
  · rfl

/-- Settles O43: no slot, no byte and no flag of the next state sees the trace, and `TRACE` only gets the command's
events. -/
theorem traceIsNeverRead : Obligations.TraceIsNeverRead := by
  intro p on i s t log h
  obtain ⟨u, hrun, heq⟩ := execWith_withSetSlotsAndTrace p on (u := s.uplink) (d := s.downlink) (log := log)
    (fun _ _ _ _ => substitute_withSetSlotsAndTrace (fun _ => rfl) (fun _ => rfl)) h
  have huplink : t.uplink = u.uplink := slot_eq_of_withSetSlotsAndTrace h hrun (sl := .uplink) rfl
  have hdownlink : t.downlink = u.downlink := slot_eq_of_withSetSlotsAndTrace h hrun (sl := .downlink) rfl
  rw [huplink, hdownlink] at heq
  exact ⟨u, hrun, heq, _, execWith_trace hrun, fun hon => commandEvents_eq_nil hon i _⟩

/-! ## `UPLINK` and `DOWNLINK` (R21) -/

/-- `SET_UPLINK` is the one command that may write `UPLINK`, `SET_DOWNLINK` the one that may write `DOWNLINK` (R21). -/
theorem writtenSlot_eq_uplink {i : Instr} (h : writtenSlot i = some .uplink) : ∃ len, i = .setUplink len := by
  cases i with
  | setUplink len => exact ⟨len, rfl⟩
  | decodeVD2 fi fn ft => rcases storeSlot_eq_some h with ⟨-, hsl⟩ | ⟨-, hsl⟩ <;> cases hsl
  | _ => cases h

theorem writtenSlot_eq_downlink {i : Instr} (h : writtenSlot i = some .downlink) : ∃ len, i = .setDownlink len := by
  cases i with
  | setDownlink len => exact ⟨len, rfl⟩
  | decodeVD2 fi fn ft => rcases storeSlot_eq_some h with ⟨-, hsl⟩ | ⟨-, hsl⟩ <;> cases hsl
  | _ => cases h

/-- No command clears `UPLINK` or `DOWNLINK` (R21, R23). -/
theorem slotAfter_ne_none {p : Params} {i : Instr} {s : State} {sl : Slot} (hsl : sl = .uplink ∨ sl = .downlink)
    (h : s.slot sl ≠ none) : slotAfter p i s sl ≠ none := by
  by_cases hw : writtenSlot i = some sl
  · rcases hsl with rfl | rfl
    · obtain ⟨len, rfl⟩ := writtenSlot_eq_uplink hw
      exact Option.some_ne_none _
    · obtain ⟨len, rfl⟩ := writtenSlot_eq_downlink hw
      exact Option.some_ne_none _
  · rwa [slotAfter_of_ne_writtenSlot hw]

/-- A command whose repair, if it is one, finds the same substitute leaves the same but for `UPLINK` and `DOWNLINK` when
these two are replaced before it, and keeps the same the one that is not replaced. -/
theorem execWith_replace_set_slots {p : Params} {i : Instr} {s t : State} {u d : Option Callsign}
    (hd : ∀ fi ft, i = .decodeVD2 fi 2 ft → d = s.downlink) (hu : ∀ fi ft, i = .decodeVD2 fi 3 ft → u = s.uplink)
    (h : execWith p i s = .next t) :
    ∃ t', execWith p i { s with uplink := u, downlink := d } = .next t' ∧
      { t' with uplink := t.uplink, downlink := t.downlink } = t ∧
      (u = s.uplink → t.uplink = t'.uplink) ∧ (d = s.downlink → t.downlink = t'.downlink) := by
  have hsub : ∀ fi fn ft, i = .decodeVD2 fi fn ft →
      substitute fn (s.withSetSlotsAndTrace u d s.trace) = substitute fn s := fun fi fn ft hi =>
    substitute_withSetSlotsAndTrace (by rintro rfl; exact hd fi ft hi) (by rintro rfl; exact hu fi ft hi)
  obtain ⟨t', hrun, heq⟩ := execWith_withSetSlotsAndTrace p p.traceEn hsub h
  have htrace : t.trace = t'.trace := by
    rw [execWith_trace h, execWith_trace hrun, commandEvents_withSetSlotsAndTrace]
    rfl
  rw [htrace] at heq
  exact ⟨t', hrun, heq, fun e => slot_eq_of_withSetSlotsAndTrace h hrun (sl := .uplink) e,
    fun e => slot_eq_of_withSetSlotsAndTrace h hrun (sl := .downlink) e⟩

/-- Settles O32: the written slot of a command says who writes `UPLINK` and `DOWNLINK`; a command that repairs with the
other slot, or does not repair, leaves the same when the one is replaced. -/
theorem setSlotsAreReadOnlyByTheRepair : Obligations.SetSlotsAreReadOnlyByTheRepair := by
  intro i s t h
  simp only [exec_eq_execWith] at h ⊢
  refine ⟨fun hne => writtenSlot_eq_uplink (writtenSlot_of_slot_ne h (sl := .uplink) hne),
    fun hne => writtenSlot_eq_downlink (writtenSlot_of_slot_ne h (sl := .downlink) hne),
    fun hs => ?_, fun hs => ?_, fun hfn u => ?_, fun hfn d => ?_⟩
  · exact (execWith_slot h .uplink).trans_ne (slotAfter_ne_none (.inl rfl) hs)
  · exact (execWith_slot h .downlink).trans_ne (slotAfter_ne_none (.inr rfl) hs)
  · obtain ⟨t', hrun, heq, -, hdownlink⟩ := execWith_replace_set_slots (u := u) (d := s.downlink)
      (fun _ _ _ => rfl) (fun fi ft hi => absurd hi (hfn fi ft)) h
    rw [hdownlink rfl] at heq
    exact ⟨t', hrun, heq⟩
  · obtain ⟨t', hrun, heq, huplink, -⟩ := execWith_replace_set_slots (u := s.uplink) (d := d)
      (fun fi ft hi => absurd hi (hfn fi ft)) (fun _ _ _ => rfl) h
    rw [huplink rfl] at heq
    exact ⟨t', hrun, heq⟩

end Sys2Proof.Machine
end

section
/-! The byte spaces and the host (R50, R52, R61): the canonical form of a space is unique, what each host event other than a
command does, and that every step of the machine keeps the invariant. -/

namespace Sys2Proof.Machine

/-- Settles O3: the machine's step is that of the engine at the machine's parameters, and every engine's step keeps the
invariant. -/
theorem everyStepKeepsTheInvariant : Obligations.EveryStepKeepsTheInvariant := by
  intro s t hs h
  have hstep : step s = stepWith params s := machineIsTheParametricEngine.2.1 s
  exact hs.stepWith (hstep.symm.trans h)

/-! ## The canonical form of a space is unique -/

/-- Among cells of rising addresses the one listed at an address is the one that is found there. -/
theorem mem_iff_find {m : Memory} (hm : m.Pairwise fun c d => c.1 < d.1) {c : Host.Cell} :
    c ∈ m ↔ Memory.find m c.1 = some c.2 := by
  induction hm with
  | nil => simp [Memory.find]
  | @cons d m hlt _ ih =>
    rw [List.mem_cons, ih, Memory.find]
    by_cases hd : d.1 = c.1
    · have hnot : c ∉ m := fun hc => absurd (hlt c hc) (by omega)
      rw [if_pos hd, ← ih, Prod.ext_iff]
      simp [hnot, hd, eq_comm]
    · have hne : c ≠ d := by rintro rfl; exact hd rfl
      simp [hne, hd]

/-- A canonical memory lists exactly the values that are read from it, less the unlisted value. -/
theorem mem_iff_read {unl : Option Byte} {size : Nat} {m : Memory} (h : Memory.wf unl size m) {c : Host.Cell} :
    c ∈ m ↔ Memory.read unl m c.1 = some c.2 ∧ some c.2 ≠ unl := by
  obtain ⟨hrising, hcells⟩ := h
  have hunl : c ∈ m → some c.2 ≠ unl := fun hc => (hcells c hc).2
  rw [mem_iff_find hrising] at hunl ⊢
  unfold Memory.read
  cases hf : Memory.find m c.1 with
  | some b => rw [hf] at hunl; exact ⟨fun hb => ⟨hb, hunl hb⟩, And.left⟩
  | none => exact ⟨nofun, fun ⟨hread, hne⟩ => absurd hread.symm hne⟩

/-- Settles O22: the two lists have the same cells, those that the reads tell, and both rise. -/
theorem canonicalMemoriesAreEqualWhenTheyReadEqual : Obligations.CanonicalMemoriesAreEqualWhenTheyReadEqual := by
  intro unl size m m' h h' hread
  have hirrefl : Std.Irrefl fun c d : Host.Cell => c.1 < d.1 := ⟨fun c => lt_irrefl c.1⟩
  have hantisymm : Std.Antisymm fun c d : Host.Cell => c.1 < d.1 := ⟨fun c d hcd hdc => absurd hcd (lt_asymm hdc)⟩
  refine h.1.eq_of_mem_iff h'.1 fun c => ?_
  rw [mem_iff_read h, mem_iff_read h', hread]

/-! ## The host's own events -/

section
variable {dec : Word → Except DecodeError Instr} {run : Instr → State → Host.Outcome State Fault Refusal}
variable {s : State} {rest : List HostEvent} {addr : Nat} {bytes : List Byte}

theorem performNext_placeFrame (h : s.pending = .placeFrame bytes :: rest) :
    performNext dec run s = .next (hostPlaceFrame bytes { s with pending := rest }) := by
  simp only [performNext, fetch, h]

theorem performNext_writeFrame (h : s.pending = .writeFrame addr bytes :: rest) :
    performNext dec run s = hostWrite .frame addr bytes { s with pending := rest } := by
  simp only [performNext, fetch, h]

theorem performNext_writeCsin (h : s.pending = .writeCsin addr bytes :: rest) :
    performNext dec run s = hostWrite .csin addr bytes { s with pending := rest } := by
  simp only [performNext, fetch, h]

theorem performNext_reset (h : s.pending = .reset :: rest) :
    performNext dec run s = .next (resetEngine { s with pending := rest }) := by
  simp only [performNext, fetch, h]

theorem performNext_concurrent (h : s.pending = .concurrent :: rest) :
    performNext dec run s = .refused .concurrentCommand := by
  simp only [performNext, fetch, h]

end

section
variable {sp : Space} {addr : Nat} {bytes : List Byte} {s : State}

theorem hostWrite_inside (h : addr + bytes.length ≤ s.size sp) :
    hostWrite sp addr bytes s = .next (memWrite sp addr bytes s) := if_pos h

theorem hostWrite_outside (h : s.size sp < addr + bytes.length) :
    hostWrite sp addr bytes s = .fault (.outsideSpace sp (max addr (s.size sp))) := if_neg (Nat.not_le.2 h)

/-- A byte of a run written inside its space reads as written (R55). -/
theorem byte_memWrite_inside (h : addr + bytes.length ≤ s.size sp) {k : Nat} (hk : k < bytes.length) :
    (memWrite sp addr bytes s).byte sp (addr + k) = bytes[k]? := by
  rw [byte_memWrite, if_pos ⟨rfl, by omega, by omega, by omega⟩, Nat.add_sub_cancel_left]

end

/-- A placed frame is the whole of `FRAME` (R52; log 14). -/
theorem hostPlaceFrame_byte (bytes : List Byte) (s : State) (a : Nat) :
    (hostPlaceFrame bytes s).byte .frame a = bytes[a]? := by
  change (if a < bytes.length then Memory.read _ (Memory.write _ [] 0 bytes) a else none) = _
  by_cases ha : a < bytes.length
  · rw [if_pos ha, read_write, if_pos ⟨Nat.zero_le a, by omega⟩, Nat.sub_zero]
  · rw [if_neg ha, List.getElem?_eq_none (Nat.not_lt.1 ha)]

/-- After a reset between commands no byte of `PAYLOAD` has a value (R290, R35). -/
theorem resetEngine_payload_byte (s : State) (a : Nat) : (resetEngine s).byte .payload a = none :=
  (byte_payload_congr rfl a).trans (resetWith_payload_byte params a)

/-- Settles O9: each event is one operation on the state with the event taken, and the bytes are those of the write. -/
theorem hostEventsActOnTheHostsBuffers : Obligations.HostEventsActOnTheHostsBuffers := by
  intro s rest
  refine ⟨fun bytes h => ?_, fun addr bytes h hlen => ?_, fun addr bytes h hlen => ?_, fun addr bytes h hlen => ?_,
    fun addr bytes h hlen => ?_, fun h => ?_, fun h => performNext_concurrent h⟩
  · exact ⟨_, performNext_placeFrame h, rfl, hostPlaceFrame_byte bytes _⟩
  · refine ⟨_, (performNext_writeFrame h).trans (hostWrite_inside hlen), rfl, fun k hk => ?_, fun a ha => ?_⟩
    · exact byte_memWrite_inside hlen hk
    · exact byte_memWrite_outside _ _ _ _ _ _ (.inr ha)
  · refine ⟨_, (performNext_writeCsin h).trans (hostWrite_inside hlen), rfl, fun k hk => ?_, fun a ha => ?_⟩
    · exact byte_memWrite_inside hlen hk
    · exact byte_memWrite_outside _ _ _ _ _ _ (.inr ha)
  · exact ⟨_, (performNext_writeFrame h).trans (hostWrite_outside hlen)⟩
  · exact ⟨_, (performNext_writeCsin h).trans (hostWrite_outside hlen)⟩
  · exact ⟨_, performNext_reset h, fun sl => by cases sl <;> rfl, resetEngine_payload_byte _, rfl, rfl, rfl, rfl, rfl,
      rfl, rfl, rfl⟩

end Sys2Proof.Machine
end

section
/-! Which fields each command can write (R32, R58), and that a `DECODE` of the same frame twice is one (R58). -/

namespace Sys2Proof.Machine

/-! ## Which fields a command can write -/

/-- Two states are the same in every field that the command may not write, the slots and `RESULT` apart (R32, R58). -/
structure WritesOwnFieldsOnly (i : Instr) (s t : State) : Prop where
  csin : t.csin = s.csin
  frameLen : t.frameLen = s.frameLen
  pending : t.pending = s.pending
  frame : i ≠ .encode → t.frame = s.frame
  csout : i ≠ .getSource → i ≠ .getDest → t.csout = s.csout
  payload : i.isDecode = false → t.payload = s.payload
  payloadValid : i.isDecode = false → t.payloadValid = s.payloadValid

theorem decoded_writesOwnFieldsOnly (p : Params) {i : Instr} (hi : i.isDecode = true) (s : State) :
    WritesOwnFieldsOnly i s (decoded p i s) where
  csin := rfl
  frameLen := rfl
  pending := rfl
  frame _ := rfl
  csout _ _ := rfl
  payload hi' := absurd (hi.symm.trans hi') nofun
  payloadValid hi' := absurd (hi.symm.trans hi') nofun

theorem setSlot_writesOwnFieldsOnly (i : Instr) (s : State) (sl : Slot) (v : Option Callsign) :
    WritesOwnFieldsOnly i s (s.setSlot sl v) := by
  constructor <;> simp

theorem memWrite_frame_writesOwnFieldsOnly (a : Nat) (v : List Byte) (s : State) :
    WritesOwnFieldsOnly .encode s (memWrite .frame a v s) where
  csin := rfl
  frameLen := rfl
  pending := rfl
  frame hi := absurd rfl hi
  csout _ _ := rfl
  payload _ := rfl
  payloadValid _ := rfl

/-- A `GET` writes `RESULT`, its mailbox and `CSOUT` (R243, R244). -/
theorem takeMailbox_eq (sl : Slot) (s : State) :
    takeMailbox sl s =
      setResult (s.slot sl).isSome ({ s with csout := (takeMailbox sl s).csout }.setSlot sl none) := by
  cases hc : s.slot sl with
  | none =>
    have hempty : s.setSlot sl none = s := by
      rw [← hc]
      cases sl <;> rfl
    rw [takeMailbox_none hc, setResult_csout, hempty]
    rfl
  | some c =>
    rw [takeMailbox_some hc]
    cases sl <;> rfl

theorem takeMailbox_writesOwnFieldsOnly {i : Instr} (hi : i = .getSource ∨ i = .getDest) (sl : Slot) (s : State) :
    WritesOwnFieldsOnly i s (takeMailbox sl s) := by
  rw [takeMailbox_eq]
  constructor
  case csout => exact fun hsource hdest => absurd hi (not_or.2 ⟨hsource, hdest⟩)
  all_goals simp

/-- Every command that completes writes its own fields only. -/
theorem execWith_writesOwnFieldsOnly {p : Params} {i : Instr} {s t : State} (h : execWith p i s = .next t) :
    WritesOwnFieldsOnly i s t := by
  rcases execWith_next_cases_decoded h with
    ⟨hi, -, rfl⟩ | ⟨rfl, he⟩ | ⟨len, rfl, rfl⟩ | ⟨len, rfl, rfl⟩ | ⟨rfl, rfl⟩ | ⟨rfl, rfl⟩
  · exact decoded_writesOwnFieldsOnly p hi s
  · obtain ⟨-, -, v, -, -, rfl⟩ := encodeCommand_inv he
    exact memWrite_frame_writesOwnFieldsOnly _ v s
  · exact setSlot_writesOwnFieldsOnly ..
  · exact setSlot_writesOwnFieldsOnly ..
  · exact takeMailbox_writesOwnFieldsOnly (.inl rfl) .source s
  · exact takeMailbox_writesOwnFieldsOnly (.inr rfl) .dest s

theorem blockTrace_length_le (p : Params) (tag : TraceTag) (dch : List Byte) : (blockTrace p tag dch).length ≤ 1 := by
  unfold blockTrace
  split <;> simp

/-- A command appends two events at most (R32, R136). -/
theorem commandEvents_length_le (p : Params) (i : Instr) (s : State) : (commandEvents p i s).length ≤ 2 := by
  cases i with
  | decodeHT | decodeDFR =>
    rw [commandEvents, List.length_append]
    exact Nat.add_le_add (blockTrace_length_le ..) (blockTrace_length_le ..)
  | decodeVD1 => exact (blockTrace_length_le ..).trans (by decide)
  | decodeVD2 =>
    rw [commandEvents]
    split <;> simp
  | decodeVFR | encode | setUplink | setDownlink | getSource | getDest => exact Nat.zero_le 2

/-- Only a `DECODE` appends events (R32, R136). -/
theorem commandEvents_of_not_decode (p : Params) {i : Instr} (hi : i.isDecode = false) (s : State) :
    commandEvents p i s = [] := by
  cases i with
  | decodeHT | decodeVD1 | decodeDFR | decodeVD2 | decodeVFR => cases hi
  | encode | setUplink | setDownlink | getSource | getDest => rfl

/-- Settles O36: a command writes its own fields only, and `TRACE` gets its events. -/
theorem commandsWriteOnlyTheirOwnState : Obligations.CommandsWriteOnlyTheirOwnState := by
  intro i s t h
  rw [exec_eq_execWith] at h
  have hw := execWith_writesOwnFieldsOnly h
  have htrace := execWith_trace h
  refine ⟨hw.csin, hw.frameLen, hw.pending, hw.frame, hw.csout, fun hi => ⟨hw.payload hi, hw.payloadValid hi, ?_⟩,
    _, htrace, commandEvents_length_le params i s⟩
  rw [htrace, commandEvents_of_not_decode params hi, List.append_nil]

/-! ## A second `DECODE` of the same frame -/

/-- A `DECODE` writes no slot that repairs (R207, R208, R219). -/
theorem substitute_decoded (p : Params) (i : Instr) (fn : BitVec 3) (s : State) :
    substitute fn (decoded p i s) = substitute fn s := substitute_congr rfl rfl

/-- The block that is re-encoded is the same after a `DECODE`, which writes neither the frame nor a slot that repairs. -/
theorem regeneratedBlock_decoded (p : Params) (i : Instr) (s : State) :
    regeneratedBlock p i (decoded p i s) = regeneratedBlock p i s := by
  cases i with
  | decodeVD2 fi fn ft =>
    rw [regeneratedBlock, regeneratedBlock, substitute_decoded]
    rfl
  | _ => rfl

/-- So is the value of `RESULT` (R153). -/
theorem resultAfter_decoded (p : Params) {i : Instr} (hi : i.isDecode = true) (s : State) :
    resultAfter p i (decoded p i s) = resultAfter p i s := by
  cases i with
  | decodeVD2 fi fn ft =>
    rw [resultAfter, resultAfter, substitute_decoded]
    rfl
  | decodeHT | decodeVD1 | decodeDFR | decodeVFR => rfl
  | encode | setUplink | setDownlink | getSource | getDest => cases hi

/-- Settles O39: the second run finds the same payload region and the same block to re-encode. -/
theorem decodeTwiceIsDecodeOnce : Obligations.DecodeTwiceIsDecodeOnce := by
  intro i s t u hi ht hu
  rw [exec_eq_execWith] at ht hu
  obtain ⟨-, rfl⟩ := execWith_decode_inv hi ht
  obtain ⟨-, rfl⟩ := execWith_decode_inv hi hu
  refine ⟨resultAfter_decoded params hi s, fun k hk => ?_⟩
  have hwindow : window params (decoded params i s) = window params s := rfl
  rw [decoded_payload_byte _ _ _ hk, decoded_payload_byte _ _ _ hk, regeneratedBlock_decoded, hwindow]

end Sys2Proof.Machine
end

section
/-! What of `FRAME` cannot influence a command: the bytes outside the payload region (R57), and the payload bytes that a
mode never interprets (R60, R192). -/

namespace Sys2Proof.Machine

/-- The state with other contents of `FRAME`, of the same length. -/
def State.withFrame (s : State) (f : Memory) : State := { s with frame := f }

section
variable {p : Params} {i : Instr} {s : State} {f : Memory}

/-! ## What a command sees of the frame -/

/-- The payload region is its 90 bytes (R51). -/
theorem window_withFrame
    (h : ∀ k < 90, (s.withFrame f).byte .frame (p.payloadOff + k) = s.byte .frame (p.payloadOff + k)) :
    window p (s.withFrame f) = window p s :=
  List.map_congr_left fun k hk => by rw [h k (List.mem_range.1 hk)]

/-- A channel of groups of `w` bytes is made of those bytes of the payload region alone (R114 to R116). -/
theorem channel_withFrame {w : Nat} (hw : w ≤ 18)
    (h : ∀ k < 90, k % 18 < w →
      (s.withFrame f).byte .frame (p.payloadOff + k) = s.byte .frame (p.payloadOff + k)) :
    channel w 0 (window p (s.withFrame f)) = channel w 0 (window p s) := by
  refine List.map_congr_left fun k hk => ?_
  have hk : k < 5 * w := List.mem_range.1 hk
  have hgroup : k / w < 5 := Nat.div_lt_of_lt_mul (by rwa [Nat.mul_comm])
  have hbyte : k % w < w := Nat.mod_lt k (by omega)
  have hlt : 18 * (k / w) + 0 + k % w < 90 := by omega
  have hmod : (18 * (k / w) + 0 + k % w) % 18 < w := by omega
  simp only [window, List.getD_eq_getElem?_getD, List.getElem?_map, List.getElem?_range hlt, Option.map_some,
    h _ hlt hmod]

section
variable (hout : ∀ fi fn ft, i = .decodeVD2 fi fn ft → vd2Out p (s.withFrame f) = vd2Out p s)
include hout

/-- The table sees of the frame the decoded block of a V/D Mode 2 frame alone (R23). -/
theorem slotAfter_withFrame (sl : Slot) : slotAfter p i (s.withFrame f) sl = slotAfter p i s sl := by
  cases i with
  | decodeVD2 fi fn ft =>
    cases sl with
    | uplink | downlink => rfl
    | source | dest =>
      simp only [slotAfter, vd2Crc, vd2Callsign, vd2Info, hout fi fn ft rfl]
      rfl
  | _ => cases sl <;> rfl

/-- So does `RESULT` (R153). -/
theorem resultAfter_withFrame : resultAfter p i (s.withFrame f) = resultAfter p i s := by
  cases i with
  | decodeVD2 fi fn ft =>
    simp only [resultAfter, vd2Crc, hout fi fn ft rfl]
    rfl
  | _ => rfl

/-- So does the block that is re-encoded (R209). -/
theorem regeneratedBlock_withFrame : regeneratedBlock p i (s.withFrame f) = regeneratedBlock p i s := by
  cases i with
  | decodeVD2 fi fn ft =>
    simp only [regeneratedBlock, vd2Crc, vd2Info, hout fi fn ft rfl]
    rfl
  | _ => rfl

/-- So do the events of a V/D Mode 2 frame (R136). -/
theorem commandEvents_decodeVD2_withFrame {fi : BitVec 2} {fn ft : BitVec 3} (hi : i = .decodeVD2 fi fn ft) :
    commandEvents p i (s.withFrame f) = commandEvents p i s := by
  subst hi
  simp only [commandEvents, vd2Crc, vd2Info, hout fi fn ft rfl]
  rfl

end

/-! ## The bytes outside the payload region (R57) -/

/-- Two runs end alike: the same refusal, the same fault, or next states that are the same but for `FRAME`, and agree on
its payload region. -/
inductive EndAlike (p : Params) : Host.Outcome State Fault Refusal → Host.Outcome State Fault Refusal → Prop
  | refused (r : Refusal) : EndAlike p (.refused r) (.refused r)
  | fault (e : Fault) : EndAlike p (.fault e) (.fault e)
  | next (t : State) (g : Memory)
      (h : ∀ k < 90, (t.withFrame g).byte .frame (p.payloadOff + k) = t.byte .frame (p.payloadOff + k)) :
      EndAlike p (.next t) (.next (t.withFrame g))

section
variable (hw : window p (s.withFrame f) = window p s)
include hw

theorem vd2Out_withFrame : vd2Out p (s.withFrame f) = vd2Out p s := by
  rw [vd2Out, vd2Out, hw]

theorem commandEvents_withFrame : commandEvents p i (s.withFrame f) = commandEvents p i s := by
  cases i with
  | decodeHT | decodeDFR | decodeVD1 => simp only [commandEvents, hw]
  | decodeVD2 fi fn ft => exact commandEvents_decodeVD2_withFrame (fun _ _ _ _ => vd2Out_withFrame hw) rfl
  | _ => rfl

theorem copiedIn_withFrame : copiedIn p (s.withFrame f) = (copiedIn p s).withFrame f := by
  rw [copiedIn, copiedIn, hw]
  rfl

theorem decodedPayload_withFrame : decodedPayload p i (s.withFrame f) = decodedPayload p i s := by
  unfold decodedPayload
  rw [regeneratedBlock_withFrame fun _ _ _ _ => vd2Out_withFrame hw, copiedIn_withFrame hw]
  cases regeneratedBlock p i s <;> rfl

/-- A `DECODE` of a frame with the same payload region leaves the same in every field but the frame. -/
theorem decoded_withFrame : decoded p i (s.withFrame f) = (decoded p i s).withFrame f := by
  have hout : ∀ fi fn ft, i = .decodeVD2 fi fn ft → vd2Out p (s.withFrame f) = vd2Out p s :=
    fun _ _ _ _ => vd2Out_withFrame hw
  rw [decoded, slotAfter_withFrame hout, slotAfter_withFrame hout, decodedPayload_withFrame hw,
    resultAfter_withFrame hout, commandEvents_withFrame hw]
  rfl

end

/-- The bytes that are read of a space depend on what it holds there (R10, R55). -/
theorem memRead_congr {sp : Space} {s t : State} (h : ∀ a, t.byte sp a = s.byte sp a) (hsize : t.size sp = s.size sp)
    (a n : Nat) : memRead sp a n t = memRead sp a n s := by
  induction n generalizing a with
  | zero => rfl
  | succ n ih => simp only [memRead, readByte, h, hsize, ih]

/-- `ENCODE` on two frames of one length ends alike: the bytes it writes are those of `PAYLOAD` (R157). -/
theorem encodeCommand_endAlike : EndAlike p (encodeCommand p s) (encodeCommand p (s.withFrame f)) := by
  have hread : memRead .payload 0 90 (s.withFrame f) = memRead .payload 0 90 s := memRead_congr (fun _ => rfl) rfl 0 90
  have hvalid : (s.withFrame f).payloadValid = s.payloadValid := rfl
  have hlong : frameLongEnough p (s.withFrame f) = frameLongEnough p s := rfl
  simp only [encodeCommand, hread, hvalid, hlong]
  cases s.payloadValid with
  | false => exact .refused _
  | true =>
    cases hl : frameLongEnough p s with
    | false => exact .refused _
    | true =>
      cases hm : memRead .payload 0 90 s with
      | error e => exact .fault e
      | ok v =>
        have hlen : v.length = 90 := (memRead_eq_ok.1 hm).1
        have hin : p.payloadOff + v.length ≤ s.size .frame := by rw [hlen]; exact frameLongEnough_iff.1 hl
        have hin' : p.payloadOff + v.length ≤ (s.withFrame f).size .frame := hin
        refine .next _ _ fun k hk => ?_
        have hk : k < v.length := by rwa [hlen]
        exact (byte_memWrite_inside hin' hk).trans (byte_memWrite_inside hin hk).symm

/-- A mailbox is taken without a look at the frame (R243, R244). -/
theorem takeMailbox_withFrame (sl : Slot) : takeMailbox sl (s.withFrame f) = (takeMailbox sl s).withFrame f := by
  have hslot : (s.withFrame f).slot sl = s.slot sl := by cases sl <;> rfl
  cases hc : s.slot sl with
  | none =>
    rw [takeMailbox_none hc, takeMailbox_none (hslot.trans hc)]
    rfl
  | some c =>
    rw [takeMailbox_some hc, takeMailbox_some (hslot.trans hc)]
    cases sl <;> rfl

/-- A byte on which two frames agree they still agree on when neither is written. -/
theorem WritesOwnFieldsOnly.byte_withFrame {t : State} (ht : WritesOwnFieldsOnly i s t) (hi : i ≠ .encode) {a : Nat}
    (ha : (s.withFrame f).byte .frame a = s.byte .frame a) : (t.withFrame f).byte .frame a = t.byte .frame a :=
  calc (t.withFrame f).byte .frame a = (s.withFrame f).byte .frame a :=
        byte_frame_congr (t := t.withFrame f) (s := s.withFrame f) rfl ht.frameLen a
    _ = s.byte .frame a := ha
    _ = t.byte .frame a := (byte_frame_congr (ht.frame hi) ht.frameLen a).symm

/-- A command on two frames of one length that agree on the payload region ends alike. -/
theorem execWith_endAlike
    (h : ∀ k < 90, (s.withFrame f).byte .frame (p.payloadOff + k) = s.byte .frame (p.payloadOff + k)) :
    EndAlike p (execWith p i s) (execWith p i (s.withFrame f)) := by
  have hnext : ∀ t, i ≠ .encode → execWith p i s = .next t → execWith p i (s.withFrame f) = .next (t.withFrame f) →
      EndAlike p (execWith p i s) (execWith p i (s.withFrame f)) := by
    intro t hi ht ht'
    have hw := execWith_writesOwnFieldsOnly ht
    rw [ht, ht']
    exact .next t f fun k hk => hw.byte_withFrame hi (h k hk)
  by_cases hd : i.isDecode = true
  · cases hl : frameLongEnough p s with
    | false =>
      rw [execWith_decode_short hd hl, execWith_decode_short (s := s.withFrame f) hd hl]
      exact .refused _
    | true =>
      refine hnext (decoded p i s) (by rintro rfl; cases hd) (execWith_decode_eq_decoded hd hl) ?_
      rw [execWith_decode_eq_decoded (s := s.withFrame f) hd hl, decoded_withFrame (window_withFrame h)]
  · cases i with
    | encode => exact encodeCommand_endAlike
    | setUplink len | setDownlink len => exact hnext _ nofun (setCallsign_next ..) (setCallsign_next ..)
    | getSource | getDest => exact hnext _ nofun rfl (congrArg _ (takeMailbox_withFrame _))
    | decodeHT | decodeVD1 | decodeDFR | decodeVD2 | decodeVFR => exact absurd rfl hd

/-- A command that completes keeps every byte of `FRAME` outside the payload region (R57). -/
theorem execWith_frame_byte_outside {t : State} (h : execWith p i s = .next t) {a : Nat}
    (ha : a < p.payloadOff ∨ p.payloadOff + 90 ≤ a) : t.byte .frame a = s.byte .frame a := by
  by_cases hi : i = .encode
  · subst hi
    obtain ⟨-, -, v, hlen, -, rfl⟩ := encodeCommand_inv h
    exact byte_memWrite_outside _ _ _ _ _ _ (.inr (by rwa [hlen]))
  · have hw := execWith_writesOwnFieldsOnly h
    exact byte_frame_congr (hw.frame hi) hw.frameLen a

end

/-- Settles O40: two runs end alike, and of `FRAME` only `ENCODE` writes, the payload region. -/
theorem frameOutsideThePayloadIsNeverTouched : Obligations.FrameOutsideThePayloadIsNeverTouched := by
  intro i s f h
  simp only [exec_eq_execWith]
  have houtside : ∀ t, execWith params i s = .next t →
      ∀ a, a < params.payloadOff ∨ params.payloadOff + 90 ≤ a → t.byte .frame a = s.byte .frame a :=
    fun _ ht _ ha => execWith_frame_byte_outside ht ha
  have hend : EndAlike params (execWith params i s) (execWith params i { s with frame := f }) := execWith_endAlike h
  generalize execWith params i s = o, execWith params i { s with frame := f } = o' at houtside hend
  cases hend with
  | refused r => exact ⟨fun _ hr => hr, nofun, nofun⟩
  | fault e => exact ⟨nofun, fun _ he => he, nofun⟩
  | next t g hg =>
    refine ⟨nofun, nofun, ?_⟩
    rintro _ ⟨⟩
    exact ⟨houtside t rfl, _, rfl, rfl, hg⟩

/-! ## The payload bytes that a mode never interprets (R60, R192) -/

section
variable {p : Params} {i : Instr} {s t t' : State} {f : Memory}
variable (h : execWith p i s = .next t) (h' : execWith p i (s.withFrame f) = .next t')
variable (hout : ∀ fi fn ft, i = .decodeVD2 fi fn ft → vd2Out p (s.withFrame f) = vd2Out p s)
include h h' hout

/-- A `DECODE` of a frame with the same events and, in V/D Mode 2, the same decoded block leaves the same trace, `RESULT`
and slots. -/
theorem outputs_eq_of_withFrame (hi : i.isDecode = true)
    (hevents : commandEvents p i (s.withFrame f) = commandEvents p i s) :
    t'.trace = t.trace ∧ t'.result = t.result ∧ ∀ sl, t'.slot sl = t.slot sl := by
  refine ⟨?_, ?_, fun sl => ?_⟩
  · rw [execWith_trace h, execWith_trace h', hevents]
    rfl
  · obtain ⟨-, rfl⟩ := execWith_decode_inv hi h
    obtain ⟨-, rfl⟩ := execWith_decode_inv hi h'
    exact resultAfter_withFrame hout
  · rw [execWith_slot h, execWith_slot h', slotAfter_withFrame hout]

/-- It also leaves the same byte of `PAYLOAD` at each position where the two frames agree. -/
theorem payload_byte_eq_of_withFrame (hi : i.isDecode = true) {k : Nat} (hk : k < 90)
    (hbyte : (s.withFrame f).byte .frame (p.payloadOff + k) = s.byte .frame (p.payloadOff + k)) :
    t'.byte .payload k = t.byte .payload k := by
  obtain ⟨hl, rfl⟩ := execWith_decode_inv hi h
  obtain ⟨hl', rfl⟩ := execWith_decode_inv hi h'
  rw [decoded_payload_byte _ _ _ hk, decoded_payload_byte _ _ _ hk, regeneratedBlock_withFrame hout,
    window_getElem? hl hk, window_getElem? hl' hk, hbyte]

end

/-- Settles O41: V/D Mode 1 and V/D Mode 2 see their channel alone, Voice Full-Rate nothing of the payload. -/
theorem uninterpretedPayloadBytesDoNotMatter : Obligations.UninterpretedPayloadBytesDoNotMatter := by
  intro fi fn ft s f t t'
  simp only [exec_eq_execWith]
  refine ⟨fun ht ht' h => ?_, fun ht ht' h => ?_, fun ht ht' => ?_⟩
  · have hchannel := channel_withFrame (by decide) h
    exact outputs_eq_of_withFrame ht ht' nofun rfl (by simp only [commandEvents, hchannel])
  · have hout : vd2Out params (s.withFrame f) = vd2Out params s :=
      congrArg (decodedBlock10 params) (channel_withFrame (by decide) h)
    have hevents := commandEvents_decodeVD2_withFrame (fun _ _ _ _ => hout) (rfl : Instr.decodeVD2 fi fn ft = _)
    obtain ⟨htrace, hresult, hslots⟩ := outputs_eq_of_withFrame ht ht' (fun _ _ _ _ => hout) rfl hevents
    refine ⟨htrace, hresult, hslots, fun k ⟨hk, hgroup⟩ => ?_⟩
    exact payload_byte_eq_of_withFrame ht ht' (fun _ _ _ _ => hout) rfl hk (h k hk hgroup)
  · exact outputs_eq_of_withFrame ht ht' nofun rfl rfl

end Sys2Proof.Machine
end

section
/-! The encoding of the machine (R82, R83, R87 to R94): which words are reserved, the opcode table against the decoder,
and the step on a presented word. -/

namespace Sys2Proof

/-! ## Reserved words (R91) -/

theorem decodeFormatD_eq_error {p : Params} {w : Word} :
    (∃ e, decodeFormatD p w = .error e) ↔ w.extractLsb' 0 2 ≠ 0 := by
  unfold decodeFormatD
  split <;> rename_i hz <;> simpa using hz

theorem decodeFormatL_eq_error {mk : BitVec 4 → Instr} {w : Word} :
    (∃ e, decodeFormatL mk w = .error e) ↔ w.extractLsb' 4 8 ≠ 0 := by
  unfold decodeFormatL
  split <;> rename_i hz <;> simpa using hz

theorem decodeFormatZ_eq_error {i : Instr} {w : Word} :
    (∃ e, decodeFormatZ i w = .error e) ↔ w.extractLsb' 0 12 ≠ 0 := by
  unfold decodeFormatZ
  split <;> rename_i hz <;> simpa using hz

/-- Which words are reserved, for every parameter set: `op` has no row, or a must-be-zero bit of its format is 1
(R91). -/
theorem decodeWith_eq_error {p : Params} {w : Word} :
    (∃ e, decodeWith p w = .error e) ↔
      (opField w = 0 ∨ 7 ≤ (opField w).toNat ∨ (opField w = 1 ∧ w.extractLsb' 0 2 ≠ 0) ∨
        ((opField w = 3 ∨ opField w = 4) ∧ w.extractLsb' 4 8 ≠ 0) ∨
        ((opField w = 2 ∨ opField w = 5 ∨ opField w = 6) ∧ w.extractLsb' 0 12 ≠ 0)) := by
  unfold decodeWith
  split
  case h_1 hop => simp [decodeFormatD_eq_error, BitVec.eq_of_toNat_eq (y := 1#4) hop]
  case h_2 hop => simp [decodeFormatZ_eq_error, BitVec.eq_of_toNat_eq (y := 2#4) hop]
  case h_3 hop => simp [decodeFormatL_eq_error, BitVec.eq_of_toNat_eq (y := 3#4) hop]
  case h_4 hop => simp [decodeFormatL_eq_error, BitVec.eq_of_toNat_eq (y := 4#4) hop]
  case h_5 hop => simp [decodeFormatZ_eq_error, BitVec.eq_of_toNat_eq (y := 5#4) hop]
  case h_6 hop => simp [decodeFormatZ_eq_error, BitVec.eq_of_toNat_eq (y := 6#4) hop]
  case h_7 h1 h2 h3 h4 h5 h6 =>
    have hop : opField w = 0 ∨ 7 ≤ (opField w).toNat := by
      rcases Nat.eq_zero_or_pos (opField w).toNat with h0 | hpos
      · exact .inl (BitVec.eq_of_toNat_eq h0)
      · simp only [imp_false] at h1 h2 h3 h4 h5 h6
        exact .inr (by omega)
    exact ⟨fun _ => hop.imp_right .inl, fun _ => ⟨_, rfl⟩⟩

/-! ## The machine's decoder (R83, R88, R90) -/

/-- A word decodes to the one command of the machine that it encodes, and to no other (R87 to R92). -/
theorem decode_eq_ok_iff {w : Word} {i : Instr} : decode w = .ok i ↔ i.wellFormed = true ∧ encode i = w := by
  refine ⟨decodeWith_eq_ok, ?_⟩
  rintro ⟨hi, rfl⟩
  exact decodeWith_encode hi

/-- Settles O12: it is so of the decoder of every parameter set. -/
theorem decodeInvertsEncode : Obligations.DecodeInvertsEncode := fun _ hi => decodeWith_encode hi

/-- Settles O13: it is so of the decoder of every parameter set. -/
theorem encodeInvertsDecode : Obligations.EncodeInvertsDecode := fun _ _ h => decodeWith_eq_ok h

/-- Settles O15: each word is the encoding of its command, and the command is well-formed. -/
theorem sampleWordsDecode : Obligations.SampleWordsDecode := by
  simp only [Obligations.SampleWordsDecode, decode_eq_ok_iff]
  decide

/-! ## The opcode table (R90) -/

/-- A word that selects a row has the row's bits wherever the mask is 1. -/
theorem extractLsb'_eq_of_selects {r : OpcodeRow} {w : Word} (h : r.selects w = true) {i n : Nat}
    (hm : r.mask.extractLsb' i n = BitVec.allOnes n) : w.extractLsb' i n = r.pattern.extractLsb' i n := by
  have hw : w &&& r.mask = r.pattern := by simpa [OpcodeRow.selects] using h
  rw [← hw, BitVec.extractLsb'_and, hm, BitVec.and_allOnes]

/-- Two rows that one word selects have the same bits wherever both masks are 1. -/
theorem patterns_agree_of_selects {r r' : OpcodeRow} {w : Word} (h : r.selects w = true) (h' : r'.selects w = true) :
    r.pattern &&& r'.mask = r'.pattern &&& r.mask := by
  have hw : w &&& r.mask = r.pattern := by simpa [OpcodeRow.selects] using h
  have hw' : w &&& r'.mask = r'.pattern := by simpa [OpcodeRow.selects] using h'
  rw [← hw, ← hw', BitVec.and_assoc, BitVec.and_assoc, BitVec.and_comm r.mask]

/-- Two rows differ in a bit where both masks are 1. -/
def OpcodeRow.Differ (r r' : OpcodeRow) : Prop := r.pattern &&& r'.mask ≠ r'.pattern &&& r.mask

theorem opcodeRows_pairwise_differ : opcodeRows.Pairwise OpcodeRow.Differ := by
  unfold OpcodeRow.Differ
  decide

/-- At most one row selects a word (R90). -/
theorem eq_of_selects {r r' : OpcodeRow} {w : Word} (hr : r ∈ opcodeRows) (hr' : r' ∈ opcodeRows)
    (h : r.selects w = true) (h' : r'.selects w = true) : r = r' := by
  have hsymm : Std.Symm OpcodeRow.Differ := ⟨fun _ _ hd => Ne.symm hd⟩
  by_contra hne
  exact opcodeRows_pairwise_differ.forall hr hr' hne (patterns_agree_of_selects h h')

/-- Every command has its row in the table. -/
theorem exists_row_of_mnemonic (i : Instr) : ∃ r ∈ opcodeRows, r.mnemonic = i.mnemonic := by
  cases i <;> simp [opcodeRows, Instr.mnemonic]

/-- The word of a well-formed command selects the row of its mnemonic and no other row (R90). -/
theorem encode_selects_iff (i : Instr) : Laws.EncodingRow.Statement i := by
  cases i with
  | decodeHT fi fn ft dt => exact Laws.EncodingRow.decodeHT fi fn ft dt
  | decodeVD1 fi fn ft => exact Laws.EncodingRow.decodeVD1 fi fn ft
  | decodeDFR fi fn ft => exact Laws.EncodingRow.decodeDFR fi fn ft
  | decodeVD2 fi fn ft => exact Laws.EncodingRow.decodeVD2 fi fn ft
  | decodeVFR fi fn ft => exact Laws.EncodingRow.decodeVFR fi fn ft
  | encode => exact Laws.EncodingRow.encode
  | setUplink len => exact Laws.EncodingRow.setUplink len
  | setDownlink len => exact Laws.EncodingRow.setDownlink len
  | getSource => exact Laws.EncodingRow.getSource
  | getDest => exact Laws.EncodingRow.getDest

/-- A word that decodes selects the row of its command (R90). -/
theorem exists_row_of_decode {w : Word} {i : Instr} (h : decode w = .ok i) :
    ∃ r ∈ opcodeRows, r.mnemonic = i.mnemonic ∧ r.selects w = true := by
  obtain ⟨hi, rfl⟩ := decode_eq_ok_iff.1 h
  obtain ⟨r, hr, hname⟩ := exists_row_of_mnemonic i
  exact ⟨r, hr, hname, (encode_selects_iff i hi r hr).2 hname⟩

/-- The mask of a row is 1 on the bits `i` to `i + n - 1`, and its pattern is `v` there. -/
def OpcodeRow.Fixes (r : OpcodeRow) (i : Nat) {n : Nat} (v : BitVec n) : Prop :=
  r.mask.extractLsb' i n = BitVec.allOnes n ∧ r.pattern.extractLsb' i n = v

theorem OpcodeRow.Fixes.extractLsb'_eq {r : OpcodeRow} {i n : Nat} {v : BitVec n} (hf : r.Fixes i v) {w : Word}
    (h : r.selects w = true) : w.extractLsb' i n = v :=
  (extractLsb'_eq_of_selects h hf.1).trans hf.2

/-- Every row fixes `op` and the must-be-zero bits of its format `D`, `L` or `Z` (R87, R90). -/
theorem opcodeRows_fix_their_format : ∀ r ∈ opcodeRows,
    (r.Fixes 12 1#4 ∧ r.Fixes 0 0#2) ∨
    ((r.Fixes 12 3#4 ∨ r.Fixes 12 4#4) ∧ r.Fixes 4 0#8) ∨
    ((r.Fixes 12 2#4 ∨ r.Fixes 12 5#4 ∨ r.Fixes 12 6#4) ∧ r.Fixes 0 0#12) := by
  unfold OpcodeRow.Fixes
  decide

/-- A word that selects a row is not reserved (R90, R91). -/
theorem not_reserved_of_selects {p : Params} {r : OpcodeRow} {w : Word} (hr : r ∈ opcodeRows)
    (h : r.selects w = true) : ¬ ∃ e, decodeWith p w = .error e := by
  rw [decodeWith_eq_error]
  rcases opcodeRows_fix_their_format r hr with ⟨hop, hz⟩ | ⟨hop | hop, hz⟩ | ⟨hop | hop | hop, hz⟩
  all_goals
    have hopw := hop.extractLsb'_eq h
    have hzw := hz.extractLsb'_eq h
    simp [opField, hopw, hzw]

/-- A word is reserved exactly when it selects no row (R90, R91). -/
theorem decode_eq_error_iff_selects_none {w : Word} :
    (∃ e, decode w = .error e) ↔ ∀ r ∈ opcodeRows, r.selects w = false := by
  constructor
  · intro he r hr
    by_contra hs
    exact not_reserved_of_selects hr (Bool.eq_true_of_not_eq_false hs) he
  · intro hnone
    cases hd : decode w with
    | error e => exact ⟨e, rfl⟩
    | ok i =>
      obtain ⟨r, hr, -, hs⟩ := exists_row_of_decode hd
      exact absurd hs (by simp [hnone r hr])

/-- Bit 10 of a word is the low bit of `fi`, and the machine's codes for header and terminator are the even ones (R82,
R90). -/
theorem isHeaderOrTerm_fiField (w : Word) : Machine.params.isHeaderOrTerm (fiField w) = !w.getLsbD 10 := by
  have hcodes : ∀ fi : BitVec 2, Machine.params.isHeaderOrTerm fi = !fi.getLsbD 0 := by decide
  rw [hcodes, fiField, BitVec.getLsbD_extractLsb']
  rfl

/-- Settles O11: the rows are disjoint where their masks meet, and each fixes what its format must be. -/
theorem decoderAgreesWithTheOpcodeTable : Obligations.DecoderAgreesWithTheOpcodeTable := fun w =>
  ⟨fun _ hr _ hr' => eq_of_selects hr hr', fun _ => exists_row_of_decode, decode_eq_error_iff_selects_none,
    isHeaderOrTerm_fiField w⟩

end Sys2Proof

namespace Sys2Proof.Machine

/-! ## The step on a presented word (R28, R91, R294) -/

/-- A presented word that decodes runs its command, and the event is taken. -/
theorem step_presentWord {w : Word} {i : Instr} (h : decode w = .ok i) (s : State) :
    step (presentWord w s) = exec i s := by
  rw [exec_eq_execWith, ← stepWith_presentWord h]
  exact machineIsTheParametricEngine.2.1 _

/-- A presented reserved word is refused (R91, R262). -/
theorem step_presentWord_reserved {w : Word} {e : DecodeError} (h : decode w = .error e) (s : State) :
    step (presentWord w s) = .refused (.reservedEncoding w) := by
  simp only [step, performNext, fetch, presentWord, h]

/-- Fetching a word by its number presents the word. -/
theorem withFetchWord_toNat (s : State) (w : Word) : s.withFetchWord 16 w.toNat = presentWord w s := by
  rw [State.withFetchWord, Nat.mod_eq_of_lt w.isLt, BitVec.ofNat_toNat, BitVec.setWidth_eq]

/-- Settles O7: the encoding of the command decodes to it, and a presented word runs what it decodes to. -/
theorem presentedEncodingRunsTheCommand : Obligations.PresentedEncodingRunsTheCommand := by
  intro s i hi
  rw [withFetchWord_toNat, step_presentWord (decodeInvertsEncode i hi)]

/-- Settles O10: the reserved words are those of every parameter set, and the step refuses a word that fails to
decode. -/
theorem reservedWordsAreRefused : Obligations.ReservedWordsAreRefused := fun _ =>
  ⟨decodeWith_eq_error, fun ⟨_, he⟩ => step_presentWord_reserved he⟩

/-- Settles O14: a word of format `D` decodes to the mode decoder's choice by its fields, and that choice runs as the
dispatch says. -/
theorem modeDecoderFollowsTheDispatch : Obligations.ModeDecoderFollowsTheDispatch := by
  intro fi fn ft dt
  have hd : decode (wordD fi fn ft dt) = .ok (selectDecode params fi fn ft dt) := decodeWith_wordD params fi fn ft dt
  refine ⟨by rw [hd, selectDecode_eq], fun i s hi => ?_⟩
  obtain rfl : selectDecode params fi fn ft dt = i := Except.ok.inj (hd.symm.trans hi)
  rw [exec_eq_execWith, execWith_selectDecode]

end Sys2Proof.Machine
end

section
/-! The datapath primitives (R110 to R134): the positions of a table are its channel's bits, the permutation engine, the
whitener, the CRC collaborator and the insertion of a channel are what their laws say. -/

namespace Sys2Proof.Machine

/-! ## The positions of a table (R113) -/

/-- The channel bit position of bit `j` of the stream under the entries `e`: bit `b` of pair `i` stands at `e i + b`
(R112, R117). -/
def streamPosition (e : Nat → Nat) (j : Nat) : Nat := e (j / 2) + j % 2

theorem streamPosition_pair (e : Nat → Nat) (i : Nat) {b : Nat} (hb : b < 2) :
    streamPosition e (2 * i + b) = e i + b := by
  rw [streamPosition, show (2 * i + b) / 2 = i by omega, show (2 * i + b) % 2 = b by omega]

/-- Two values for each pair, in order, are one value for each stream position. -/
theorem flatMap_pair_eq_map {α : Type} (f : Nat → α) (n : Nat) :
    ((List.range n).flatMap fun i => [f (2 * i), f (2 * i + 1)]) = (List.range (2 * n)).map f := by
  induction n with
  | zero => rfl
  | succ n ih => simp [List.range_succ, Nat.mul_succ, ih]

theorem map_getD_range {α : Type} (l : List α) (x : α) : ((List.range l.length).map fun i => l.getD i x) = l :=
  List.ext_getElem (by simp) fun i h1 h2 => by simp [List.getElem?_eq_getElem h2]

theorem positions_eq_map_streamPosition (m : Nat) (e : Nat → Nat) :
    ((List.range (4 * m)).flatMap fun i => [e i, e i + 1]) = (List.range (8 * m)).map (streamPosition e) := by
  rw [show 8 * m = 2 * (4 * m) by omega, ← flatMap_pair_eq_map]
  refine List.flatMap_congr fun i _ => ?_
  have h0 : streamPosition e (2 * i) = e i := streamPosition_pair e i (b := 0) (by omega)
  rw [h0, streamPosition_pair e i (by omega)]

/-- R113: all positions lie in the channel and are pairwise distinct exactly when they are the channel's, permuted. -/
theorem streamPosition_perm_iff {m : Nat} {e : Nat → Nat} :
    ((List.range (8 * m)).map (streamPosition e)).Perm (List.range (8 * m)) ↔
      (∀ i < 4 * m, e i + 1 < 8 * m) ∧
        ∀ i < 4 * m, ∀ j < 4 * m, ∀ b < 2, ∀ c < 2, e i + b = e j + c → i = j ∧ b = c := by
  constructor
  · intro hperm
    have hinj := List.inj_on_of_nodup_map (hperm.nodup_iff.2 List.nodup_range)
    refine ⟨fun i hi => ?_, fun i hi j hj b hb c hc hbc => ?_⟩
    · have hmem : streamPosition e (2 * i + 1) ∈ List.range (8 * m) :=
        hperm.mem_iff.1 (List.mem_map_of_mem (List.mem_range.2 (by omega)))
      rwa [streamPosition_pair e i (by omega), List.mem_range] at hmem
    · have heq := hinj (x := 2 * i + b) (y := 2 * j + c) (List.mem_range.2 (by omega)) (List.mem_range.2 (by omega))
        (by rw [streamPosition_pair e i hb, streamPosition_pair e j hc, hbc])
      omega
  · rintro ⟨hrange, hdistinct⟩
    have hnodup : ((List.range (8 * m)).map (streamPosition e)).Nodup := by
      refine (List.nodup_map_iff_inj_on List.nodup_range).2 fun j hj k hk hjk => ?_
      rw [List.mem_range] at hj hk
      have := hdistinct (j / 2) (by omega) (k / 2) (by omega) (j % 2) (by omega) (k % 2) (by omega) hjk
      omega
    have hsub : (List.range (8 * m)).map (streamPosition e) ⊆ List.range (8 * m) := by
      intro x hx
      obtain ⟨j, hj, rfl⟩ := List.mem_map.1 hx
      rw [List.mem_range] at hj ⊢
      have := hrange (j / 2) (by omega)
      rw [streamPosition]
      omega
    exact (List.subperm_of_subset hnodup hsub).perm_of_length_le (by simp)

theorem table_streamPosition_perm {m : Nat} (T : Table m) :
    ((List.range (8 * m)).map (streamPosition T.entry)).Perm (List.range (8 * m)) :=
  streamPosition_perm_iff.2 ⟨T.inRange, T.distinct⟩

/-! ## Tables from printed entries (R112, R113, R262) -/

/-- The check of printed entries is R113. -/
theorem entriesWellFormed_iff {m : Nat} {entries : List Nat} :
    entriesWellFormed m entries = true ↔
      entries.length = 4 * m ∧ (entries.flatMap fun e => [e, e + 1]).Perm (List.range (8 * m)) := by
  have hpos (hl : entries.length = 4 * m) :
      (entries.flatMap fun e => [e, e + 1]) = (List.range (8 * m)).map (streamPosition (entries.getD · 0)) := by
    rw [← positions_eq_map_streamPosition, ← hl]
    conv_lhs => rw [← map_getD_range entries 0, List.flatMap_map]
  constructor
  · intro h
    have hperm := streamPosition_perm_iff.2 ⟨entriesWellFormed_inRange h, entriesWellFormed_distinct h⟩
    simp only [entriesWellFormed, Bool.and_eq_true, beq_iff_eq] at h
    obtain ⟨⟨hl, -⟩, -⟩ := h
    exact ⟨hl, by rwa [hpos hl]⟩
  · rintro ⟨hl, hperm⟩
    rw [hpos hl] at hperm
    obtain ⟨hrange, hdistinct⟩ := streamPosition_perm_iff.1 hperm
    simp only [entriesWellFormed, entriesApart, Bool.and_eq_true, Bool.or_eq_true, List.all_eq_true, List.mem_range,
      decide_eq_true_eq, beq_iff_eq, bne_iff_ne]
    refine ⟨⟨hl, hrange⟩, fun i hi j hj => ?_⟩
    by_cases hij : i = j
    · exact .inl hij
    · have hapart (b : Nat) (hb : b < 2) (c : Nat) (hc : c < 2) : entries.getD i 0 + b ≠ entries.getD j 0 + c :=
        fun h => hij (hdistinct i hi j hj b hb c hc h).1
      exact .inr ⟨⟨hapart 0 (by omega) 0 (by omega), hapart 0 (by omega) 1 (by omega)⟩,
        hapart 1 (by omega) 0 (by omega)⟩

/-- What building a table can answer: the table of the entries as printed, or the refusal `IllFormedTable`. -/
theorem tableOfEntries_cases (m : Nat) (entries : List Nat) :
    (entriesWellFormed m entries = true ∧ ∃ T, tableOfEntries m entries = .ok T ∧ T.entry = (entries.getD · 0)) ∨
      (entriesWellFormed m entries = false ∧ tableOfEntries m entries = .error .illFormedTable) := by
  by_cases h : entriesWellFormed m entries = true
  · exact .inl ⟨h, _, dif_pos h, rfl⟩
  · exact .inr ⟨by simpa using h, dif_neg h⟩

theorem tableOfEntries_isOk_iff {m : Nat} {entries : List Nat} :
    (∃ T, tableOfEntries m entries = .ok T) ↔ entriesWellFormed m entries = true := by
  obtain ⟨hwf, T, hT, -⟩ | ⟨hwf, hT⟩ := tableOfEntries_cases m entries <;> simp [hwf, hT]

theorem tableOfEntries_eq_ok {m : Nat} {entries : List Nat} {T : Table m} (h : tableOfEntries m entries = .ok T)
    (i : Nat) : T.entry i = entries.getD i 0 := by
  obtain ⟨-, T', hT, he⟩ | ⟨-, hT⟩ := tableOfEntries_cases m entries
  · obtain rfl := Except.ok.inj (hT.symm.trans h)
    exact congrFun he i
  · cases hT.symm.trans h

theorem tableOfEntries_eq_error {m : Nat} {entries : List Nat} {r : Refusal}
    (h : tableOfEntries m entries = .error r) : r = .illFormedTable := by
  obtain ⟨-, T, hT, -⟩ | ⟨-, hT⟩ := tableOfEntries_cases m entries
  · cases hT.symm.trans h
  · exact (Except.error.inj (hT.symm.trans h)).symm

/-- Printing a table and building it again gives a table with its entries. -/
theorem tableOfEntries_printed {m : Nat} (T : Table m) :
    ∃ T', tableOfEntries m ((List.range (4 * m)).map T.entry) = .ok T' ∧ ∀ k < 4 * m, T.entry k = T'.entry k := by
  have hperm : (((List.range (4 * m)).map T.entry).flatMap fun e => [e, e + 1]).Perm (List.range (8 * m)) := by
    rw [List.flatMap_map, positions_eq_map_streamPosition]
    exact table_streamPosition_perm T
  obtain ⟨T', hT⟩ := tableOfEntries_isOk_iff.2 (entriesWellFormed_iff.2 ⟨by simp, hperm⟩)
  refine ⟨T', hT, fun k hk => ?_⟩
  simp [tableOfEntries_eq_ok hT, hk]

/-- Settles O16: distinct positions inside the channel are the channel's positions permuted, the check of printed entries
says the same, and each default table is a table printed. -/
theorem tablePositionsAreExactlyTheChannel : Obligations.TablePositionsAreExactlyTheChannel := by
  refine ⟨fun m T => ?_, fun m entries => ⟨tableOfEntries_isOk_iff.trans entriesWellFormed_iff,
    fun T hT i _ => tableOfEntries_eq_ok hT i, fun r hr => tableOfEntries_eq_error hr⟩,
    tableOfEntries_printed params.ilv9, tableOfEntries_printed params.ilv5⟩
  rw [positions_eq_map_streamPosition]
  exact table_streamPosition_perm T

/-- Settles O48, by evaluating the closed forms of R112. -/
theorem defaultTablesHaveThePrintedEntries : Obligations.DefaultTablesHaveThePrintedEntries := ⟨rfl, rfl⟩

/-! ## The permutation engine (R117, R118, R120) -/

section
variable {m : Nat} (T : Table m)

/-- Stream bit `j` of a deinterleaved channel is the channel's bit at its position (R117). -/
theorem flattenPairs_deinterleave (d : List Byte) :
    flattenPairs (deinterleave T d) = ((List.range (8 * m)).map (streamPosition T.entry)).map (getBit d) := by
  rw [← positions_eq_map_streamPosition, List.map_flatMap, flattenPairs, deinterleave, List.flatMap_map]
  rfl

theorem flattenPairs_pairsOf {cb : List Bool} (h : cb.length = 8 * m) : flattenPairs (pairsOf cb) = cb := by
  rw [flattenPairs, pairsOf, List.flatMap_map, flatMap_pair_eq_map (cb.getD · false),
    show 2 * (cb.length / 2) = cb.length by omega, map_getD_range]

/-- Stream bit `j` of a coded sequence stands at its position of the interleaved channel (R118). -/
theorem getBit_interleave_streamPosition (cb : List Bool) {j : Nat} (hj : j < 8 * m) :
    getBit (interleave T cb) (streamPosition T.entry j) = cb.getD j false := by
  rw [streamPosition, getBit_interleave T cb (by omega) (by omega), Nat.div_add_mod]

theorem deinterleave_interleave {cb : List Bool} (h : cb.length = 8 * m) :
    deinterleave T (interleave T cb) = pairsOf cb := by
  rw [deinterleave, pairsOf, show cb.length / 2 = 4 * m by omega]
  refine List.map_congr_left fun i hi => ?_
  have hi := List.mem_range.1 hi
  have h0 := getBit_interleave T cb hi (b := 0) (by omega)
  have h1 := getBit_interleave T cb hi (b := 1) (by omega)
  exact Prod.ext h0 h1

theorem interleave_deinterleave {d : List Byte} (h : d.length = m) :
    interleave T (flattenPairs (deinterleave T d)) = d := by
  refine buffer_eq_of_getBit (by rw [interleave_length, h]) fun k hk => ?_
  rw [interleave_length] at hk
  obtain ⟨j, hj, rfl⟩ := List.mem_map.1 ((table_streamPosition_perm T).mem_iff.2 (List.mem_range.2 hk))
  have hj := List.mem_range.1 hj
  rw [getBit_interleave_streamPosition T _ hj, flattenPairs_deinterleave]
  simp [hj]

/-- Deinterleaving permutes the bits of a channel, so it keeps the number of 1 bits (R120). -/
theorem count_flattenPairs_deinterleave (d : List Byte) :
    (flattenPairs (deinterleave T d)).count true = ((List.range (8 * m)).map (getBit d)).count true := by
  rw [flattenPairs_deinterleave, ((table_streamPosition_perm T).map (getBit d)).count_eq]

end

/-- Settles O17: each stream bit has its own position and every position has a stream bit; the interleaved bits are
counted by deinterleaving them again. -/
theorem interleaveAndDeinterleaveAreInverse : Obligations.InterleaveAndDeinterleaveAreInverse := by
  refine fun m T => ⟨fun cb h => deinterleave_interleave T h, fun d h => interleave_deinterleave T h, fun cb h => ?_,
    fun d _ => count_flattenPairs_deinterleave T d⟩
  rw [← count_flattenPairs_deinterleave T, deinterleave_interleave T h, flattenPairs_pairsOf h]

/-! ## The whitener (R124, R125) -/

/-- Settles O18: each byte is XORed twice with the same byte of the mask. -/
theorem whiteningIsSelfInverse : Obligations.WhiteningIsSelfInverse := by
  intro p B n hn
  refine List.ext_getElem? fun j => ?_
  by_cases hj : j < n
  · rw [whiten_getElem? p _ hj, List.getD_eq_getElem?_getD, whiten_getElem? p B hj, List.getElem?_take_of_lt hj,
      List.getD_eq_getElem _ _ (by omega : j < B.length), List.getElem?_eq_getElem (by omega), Option.getD_some,
      BitVec.xor_assoc, BitVec.xor_self, BitVec.xor_zero]
  · rw [List.getElem?_eq_none (by simp; omega), List.getElem?_eq_none (by simp; omega)]

/-! ## The CRC collaborator (R132 to R134) -/

theorem set_getD_self (B : List Byte) (n : Nat) : B.set n (B.getD n 0) = B := by
  by_cases h : n < B.length
  · rw [List.getD_eq_getElem _ _ h, List.set_getElem_self]
  · exact List.set_eq_of_length_le (by omega)

theorem crcAdd_getElem?_of_ne (p : Params) (B : List Byte) {n k : Nat} (h0 : k ≠ n) (h1 : k ≠ n + 1) :
    (crcAdd p B n)[k]? = B[k]? := by
  rw [crcAdd, List.getElem?_set_ne h1.symm, List.getElem?_set_ne h0.symm]

/-- The two bytes that `CrcAdd` stores (R133). -/
theorem crcAdd_crcBytes (p : Params) {B : List Byte} {n : Nat} (h : n + 2 ≤ B.length) :
    ((crcAdd p B n).getD n 0, (crcAdd p B n).getD (n + 1) 0) = p.crc (B.take n) := by
  have h0 : n < B.length := by omega
  have h1 : n + 1 < B.length := by omega
  simp [crcAdd, h0, h1]

theorem crcCheck_crcAdd (p : Params) {B : List Byte} {n : Nat} (h : n + 2 ≤ B.length) :
    crcCheck p (crcAdd p B n) n = true := by
  rw [crcCheck_eq_true, crcAdd_take, crcAdd_crcBytes p h]

theorem crcAdd_of_crcCheck {p : Params} {B : List Byte} {n : Nat} (h : crcCheck p B n = true) : crcAdd p B n = B := by
  rw [crcAdd, ← crcCheck_eq_true.1 h, set_getD_self, set_getD_self]

/-- Settles O19: `CrcAdd` stores what `CrcCheck` compares, and both compute it from the information bytes alone. -/
theorem crcCollaboratorMeetsItsContract : Obligations.CrcCollaboratorMeetsItsContract := fun p B _ h =>
  ⟨crcCheck_crcAdd p h, crcAdd_of_crcCheck, fun _ => crcAdd_getElem?_of_ne p B⟩

/-! ## Insertion and extraction (R116, R119) -/

/-- The run at the start of group `g` reads that group's five bytes of the inserted buffer. -/
theorem memRead_insert25 {d : List Byte} (hd : d.length = 25) (s : State) {g : Nat} (hg : g < 5) :
    memRead .payload (18 * g) 5 (insert25 d s) = .ok ((d.drop (5 * g)).take 5) := by
  refine memRead_eq_ok.2 ⟨by simp; omega, fun k hk => ?_⟩
  rw [insert25_payload_byte d s hd, if_pos (by omega), List.getElem?_take_of_lt hk, List.getElem?_drop]
  congr 1
  omega

theorem extract25_insert25 {d : List Byte} (hd : d.length = 25) (s : State) : extract25 (insert25 d s) = .ok d := by
  have hjoin (n : Nat) : (d.drop n).take 5 ++ d.drop (n + 5) = d.drop n := by
    rw [← List.drop_drop, List.take_append_drop]
  have hend : d.drop 25 = [] := List.drop_eq_nil_of_le (by omega)
  have hread {g : Nat} (hg : g < 5) := memRead_insert25 hd s hg
  calc extract25 (insert25 d s)
      = .ok ((d.drop 0).take 5 ++ ((d.drop 5).take 5 ++ ((d.drop 10).take 5 ++ ((d.drop 15).take 5 ++
          ((d.drop 20).take 5 ++ d.drop 25))))) := by
        simp only [extract25, groupStarts, readRuns, hend, hread (g := 0) (by omega), hread (g := 1) (by omega),
          hread (g := 2) (by omega), hread (g := 3) (by omega), hread (g := 4) (by omega)]
    _ = .ok d := by rw [hjoin 20, hjoin 15, hjoin 10, hjoin 5, hjoin 0, List.drop_zero]

/-- Settles O20, from what `Insert25` does to each byte of `PAYLOAD`. -/
theorem insertedChannelIsExtractedAgain : Obligations.InsertedChannelIsExtractedAgain := fun d s hd =>
  ⟨extract25_insert25 hd s, fun k hk => (insert25_payload_byte d s hd k).trans (if_pos hk),
    fun k hk => (insert25_payload_byte d s hd k).trans (if_neg hk), insert25_record d s⟩

end Sys2Proof.Machine
end

section
/-! The dispatch: `RESULT` after every command (R153), the payload state machine (R159), what a `DECODE` that returned 0
leaves (R154, R302), and the copy-out of `ENCODE` (R157, R158). -/

namespace Sys2Proof.Machine

/-! ## `RESULT` (R26, R153) -/

/-- A `GET` reports whether its mailbox was full (R243, R244). -/
theorem takeMailbox_result (sl : Slot) (s : State) : (takeMailbox sl s).result = (s.slot sl).isSome := by
  rw [takeMailbox_eq, setResult_result]

/-- Every command that completes leaves `RESULT` as R153 says. -/
theorem execWith_result {p : Params} {i : Instr} {s t : State} (h : execWith p i s = .next t) :
    t.result = resultAfter p i s := by
  rcases execWith_next_cases_decoded h with
    ⟨-, -, rfl⟩ | ⟨rfl, he⟩ | ⟨len, rfl, rfl⟩ | ⟨len, rfl, rfl⟩ | ⟨rfl, rfl⟩ | ⟨rfl, rfl⟩
  · rfl
  · obtain ⟨-, -, v, -, -, rfl⟩ := encodeCommand_inv he
    exact memWrite_result ..
  · exact setSlot_result ..
  · exact setSlot_result ..
  · exact takeMailbox_result .source s
  · exact takeMailbox_result .dest s

/-- Settles O35: the machine is the engine at its parameters, and every engine leaves `RESULT` so. -/
theorem resultFlagIsAsSpecified : Obligations.ResultFlagIsAsSpecified := by
  intro i s t h
  rw [exec_eq_execWith] at h
  exact execWith_result h

/-- Only V/D Mode 2 returns 0, when the CRC check failed and there is nothing to substitute (R153, R209). -/
theorem exists_decodeVD2_of_resultAfter_eq_false {p : Params} {i : Instr} {s : State} (hi : i.isDecode = true)
    (h : resultAfter p i s = false) :
    ∃ fi fn ft, i = .decodeVD2 fi fn ft ∧ vd2Crc p s = false ∧ substitute fn s = none := by
  cases i with
  | decodeVD2 fi fn ft =>
    obtain ⟨hcrc, hsub⟩ := Bool.or_eq_false_iff.1 h
    exact ⟨fi, fn, ft, rfl, hcrc, by simpa using hsub⟩
  | decodeHT | decodeVD1 | decodeDFR | decodeVFR => cases h
  | encode | setUplink | setDownlink | getSource | getDest => cases hi

/-! ## The payload state machine (R159) -/

/-- Only V/D Mode 2 re-encodes a block (R212). -/
theorem regeneratedBlock_of_ne_decodeVD2 {p : Params} {i : Instr} {s : State}
    (hi : ∀ fi fn ft, i ≠ .decodeVD2 fi fn ft) : regeneratedBlock p i s = none := by
  cases i with
  | decodeVD2 fi fn ft => exact absurd rfl (hi fi fn ft)
  | _ => rfl

/-- V/D Mode 2 returns 1 exactly when there is a block to re-encode (R153, R209). -/
theorem regeneratedBlock_decodeVD2_isSome (p : Params) (fi : BitVec 2) (fn ft : BitVec 3) (s : State) :
    (regeneratedBlock p (.decodeVD2 fi fn ft) s).isSome = resultAfter p (.decodeVD2 fi fn ft) s :=
  validBlock_isSome p (substitute fn s) (vd2Crc p s) (vd2Info p s)

/-- A `DECODE` that returns 0 re-encodes nothing (R209). -/
theorem regeneratedBlock_of_resultAfter_eq_false {p : Params} {i : Instr} {s : State} (hi : i.isDecode = true)
    (h : resultAfter p i s = false) : regeneratedBlock p i s = none := by
  obtain ⟨fi, fn, ft, rfl, -, -⟩ := exists_decodeVD2_of_resultAfter_eq_false hi h
  rwa [← regeneratedBlock_decodeVD2_isSome, Option.isSome_eq_false_iff, Option.isNone_iff_eq_none] at h

/-- A `DECODE` that re-encodes nothing leaves the copied-in payload: `LOADED` (R159). -/
theorem decoded_loaded {p : Params} {i : Instr} {s : State} (hl : frameLongEnough p s = true)
    (hb : regeneratedBlock p i s = none) : loaded p s (decoded p i s) := by
  intro k hk
  rw [decoded_payload_byte _ _ _ hk, hb]
  exact window_getElem? hl hk

/-- A `DECODE` that re-encodes a block leaves it in the five groups, and the copied-in payload between them:
`REGENERATED` (R159). -/
theorem decoded_regenerated {p : Params} {i : Instr} {s : State} {W : List Byte} (hl : frameLongEnough p s = true)
    (hb : regeneratedBlock p i s = some W) :
    (∀ k < 90, ¬ inGroup k → (decoded p i s).byte .payload k = s.byte .frame (p.payloadOff + k)) ∧
      groupsHold (decoded p i s) (reencode p W) := by
  refine ⟨fun k hk hgroup => ?_, fun k ⟨hk, hgroup⟩ => ?_⟩
  · have hgap : ¬ k % 18 < 5 := fun h => hgroup ⟨hk, h⟩
    rw [decoded_payload_byte _ _ _ hk, hb]
    exact (if_neg hgap).trans (window_getElem? hl hk)
  · rw [decoded_payload_byte _ _ _ hk, hb]
    exact if_pos hgroup

/-- Settles O37: a `DECODE` leaves `decoded`, whose payload depends on whether a block was re-encoded; no other command
writes `PAYLOAD` or `PAYLOAD_VALID`. -/
theorem payloadFollowsItsStateMachine : Obligations.PayloadFollowsItsStateMachine := by
  intro p i s t h
  cases hi : i.isDecode with
  | false =>
    have hw := execWith_writesOwnFieldsOnly h
    refine ⟨(hw.payloadValid hi).trans, nofun, nofun, ?_, fun _ => byte_payload_congr (hw.payload hi)⟩
    rintro fi fn ft rfl
    cases hi
  | true =>
    obtain ⟨hl, rfl⟩ := execWith_decode_inv hi h
    refine ⟨fun _ => rfl, fun _ => rfl, fun _ hcase => ?_, ?_, nofun⟩
    · rcases hcase with hother | hresult
      · exact decoded_loaded hl (regeneratedBlock_of_ne_decodeVD2 hother)
      · exact decoded_loaded hl (regeneratedBlock_of_resultAfter_eq_false hi hresult)
    · rintro fi fn ft rfl hresult
      obtain ⟨W, hW⟩ := Option.isSome_iff_exists.1 ((regeneratedBlock_decodeVD2_isSome p fi fn ft s).trans hresult)
      obtain ⟨hgaps, hgroups⟩ := decoded_regenerated hl hW
      exact ⟨hgaps, W, hW, hgroups⟩

/-! ## `ENCODE` (R157, R158) -/

/-- Before any `DECODE` an `ENCODE` is refused (R158; log 15). -/
theorem encodeCommand_of_payloadValid_eq_false {p : Params} {s : State} (hv : s.payloadValid = false) :
    encodeCommand p s = .refused .encodeBeforeDecode := by
  simp only [encodeCommand, hv, Bool.false_eq_true, if_false]

/-- An `ENCODE` that completes writes `FRAME` alone, and its payload region is then `PAYLOAD` (R157). -/
theorem encodeCommand_copies {p : Params} {s t : State} (h : encodeCommand p s = .next t) :
    t = { s with frame := t.frame } ∧ ∀ k < 90, t.byte .frame (p.payloadOff + k) = s.byte .payload k := by
  obtain ⟨-, hl, v, hlen, hbytes, rfl⟩ := encodeCommand_inv h
  have hin : p.payloadOff + v.length ≤ s.size .frame := by
    rw [hlen]
    exact frameLongEnough_iff.1 hl
  refine ⟨rfl, fun k hk => ?_⟩
  rw [byte_memWrite_inside hin (by rwa [hlen]), hbytes k hk]

/-- When `PAYLOAD` is the payload region of the frame, an `ENCODE` completes and rewrites every byte of `FRAME` as it
was (R157). -/
theorem execWith_encode_of_loaded {p : Params} {s : State} (hv : s.payloadValid = true)
    (hl : frameLongEnough p s = true) (hloaded : loaded p s s) :
    ∃ u, execWith p .encode s = .next u ∧ ∀ a, u.byte .frame a = s.byte .frame a := by
  have hfilled : ∀ k < 90, (s.byte .payload k).isSome := by
    intro k hk
    have hsize : p.payloadOff + 90 ≤ s.size .frame := frameLongEnough_iff.1 hl
    rw [hloaded k hk]
    exact byte_isSome_of_host (by decide) (show p.payloadOff + k < s.size .frame by omega)
  have hu := encodeCommand_next hv hl hfilled
  refine ⟨_, hu, fun a => ?_⟩
  by_cases ha : a < p.payloadOff ∨ p.payloadOff + 90 ≤ a
  · exact execWith_frame_byte_outside (i := .encode) hu ha
  · obtain ⟨k, rfl⟩ := Nat.exists_eq_add_of_le (show p.payloadOff ≤ a by omega)
    have hk : k < 90 := by omega
    exact ((encodeCommand_copies hu).2 k hk).trans (hloaded k hk)

/-- Settles O27: after the copy-out `PAYLOAD` is the payload region of the new frame, so that a second `ENCODE` rewrites
it as it is. -/
theorem encodeCopiesThePayloadOut : Obligations.EncodeCopiesThePayloadOut := by
  refine ⟨rfl, fun s => ?_⟩
  simp only [exec_eq_execWith]
  refine ⟨encodeCommand_of_payloadValid_eq_false, fun hv hlen hfilled => ?_⟩
  have hl : frameLongEnough params s = true := frameLongEnough_iff.2 hlen
  have ht := encodeCommand_next hv hl hfilled
  obtain ⟨hrest, hcopied⟩ := encodeCommand_copies ht
  refine ⟨_, ht, hrest, hcopied, fun _ => execWith_frame_byte_outside (i := .encode) ht, ?_⟩
  exact execWith_encode_of_loaded hv hl fun k hk => (hcopied k hk).symm

/-! ## A `DECODE` that returned 0 (R154, R302) -/

/-- A V/D Mode 2 frame that fails the CRC check is not stored (R23, R205). -/
theorem slotAfter_decodeVD2_of_vd2Crc_eq_false {p : Params} {s : State} (hcrc : vd2Crc p s = false) (fi : BitVec 2)
    (fn ft : BitVec 3) (sl : Slot) : slotAfter p (.decodeVD2 fi fn ft) s sl = s.slot sl := by
  cases sl with
  | uplink | downlink => rfl
  | source | dest => simp only [slotAfter, hcrc, Bool.false_eq_true, and_false, if_false, State.slot]

/-- Nor is it traced (R136). -/
theorem commandEvents_decodeVD2_of_vd2Crc_eq_false {p : Params} {s : State} (hcrc : vd2Crc p s = false) (fi : BitVec 2)
    (fn ft : BitVec 3) : commandEvents p (.decodeVD2 fi fn ft) s = [] := by
  simp only [commandEvents, hcrc, Bool.false_and, Bool.false_eq_true, if_false]

/-- Settles O38: the command was a V/D Mode 2 whose CRC check failed and that re-encoded nothing, so `PAYLOAD` is the
payload region of the frame. -/
theorem failedDecodeKeepsTheInput : Obligations.FailedDecodeKeepsTheInput := by
  intro p i s t hi h hresult
  have hslot := execWith_slot h
  have htrace := execWith_trace h
  obtain ⟨hl, rfl⟩ := execWith_decode_inv hi h
  have hloaded : loaded p s (decoded p i s) := decoded_loaded hl (regeneratedBlock_of_resultAfter_eq_false hi hresult)
  obtain ⟨fi, fn, ft, rfl, hcrc, -⟩ := exists_decodeVD2_of_resultAfter_eq_false hi hresult
  refine ⟨fun sl => ?_, ?_, hloaded, ?_⟩
  · rw [hslot, slotAfter_decodeVD2_of_vd2Crc_eq_false hcrc]
  · rw [htrace, commandEvents_decodeVD2_of_vd2Crc_eq_false hcrc, List.append_nil]
  · exact execWith_encode_of_loaded (s := decoded p (.decodeVD2 fi fn ft) s) rfl hl hloaded

end Sys2Proof.Machine
end

section
/-! Header/Trailer, Data Full-Rate and V/D Mode 1 decode (R170 to R176, R190 to R193): what a `DECODE` that stores no
callsign leaves, and that a 20-byte plaintext comes back from the channel built from it. -/

namespace Sys2Proof.Machine

/-! ## What a `DECODE` that stores no callsign leaves (R58, R151, R153) -/

/-- Only V/D Mode 2 stores a callsign; any other `DECODE` writes `PAYLOAD`, `PAYLOAD_VALID`, `RESULT` and `TRACE`
alone. -/
theorem decoded_sameButDecode {p : Params} {i : Instr} {s : State} (hi : i.isDecode = true)
    (hvd2 : ∀ fi fn ft, i ≠ .decodeVD2 fi fn ft) : sameButDecode s (decoded p i s) := by
  cases i with
  | decodeHT | decodeVD1 | decodeDFR | decodeVFR => rfl
  | decodeVD2 fi fn ft => exact absurd rfl (hvd2 fi fn ft)
  | encode | setUplink | setDownlink | getSource | getDest => cases hi

/-- A `DECODE` of any mode but V/D Mode 2 returns 1 (R153). -/
theorem resultAfter_of_ne_decodeVD2 {p : Params} {i : Instr} {s : State} (hi : i.isDecode = true)
    (hvd2 : ∀ fi fn ft, i ≠ .decodeVD2 fi fn ft) : resultAfter p i s = true := by
  refine eq_true_of_ne_false fun h => ?_
  obtain ⟨fi, fn, ft, hi2, -⟩ := exists_decodeVD2_of_resultAfter_eq_false hi h
  exact hvd2 fi fn ft hi2

/-- A `DECODE` of any mode but V/D Mode 2 completes on a frame that is long enough; it loads `PAYLOAD` and traces its
events (R150, R151). -/
theorem execWith_observedDecode {p : Params} {i : Instr} {s : State} {events : List TraceEvent}
    (hi : i.isDecode = true) (hvd2 : ∀ fi fn ft, i ≠ .decodeVD2 fi fn ft) (hlen : p.payloadOff + 90 ≤ s.frameLen)
    (hevents : commandEvents p i s = events) : ∃ t, execWith p i s = .next t ∧ observedDecode p s t events := by
  subst hevents
  have hl : frameLongEnough p s = true := frameLongEnough_iff.2 hlen
  have hloaded : loaded p s (decoded p i s) := decoded_loaded hl (regeneratedBlock_of_ne_decodeVD2 hvd2)
  exact ⟨decoded p i s, execWith_decode_eq_decoded hi hl, decoded_sameButDecode hi hvd2,
    resultAfter_of_ne_decodeVD2 hi hvd2, rfl, hloaded, rfl⟩

/-- Settles O24: both commands are `DECODE` forms without store and repair, and their events are the two half-channels'
in order. -/
theorem twoHalfChannelDecodesComplete : Obligations.TwoHalfChannelDecodesComplete := by
  intro fi fn ft dt s hlen
  simp only [exec_eq_execWith]
  exact ⟨execWith_observedDecode rfl nofun hlen rfl, execWith_observedDecode rfl nofun hlen rfl⟩

/-! ## The channel built from a plaintext (R130, R137, R176) -/

/-- A bit before the end of the first buffer is a bit of that buffer. -/
theorem getBit_append_left {A C : List Byte} {j : Nat} (hj : j < 8 * A.length) : getBit (A ++ C) j = getBit A j := by
  rw [getBit, getBit, List.getD_append _ _ _ _ (by omega)]

/-- A bit past the end of the first buffer is a bit of the second. -/
theorem getBit_append_right (A C : List Byte) (j : Nat) : getBit (A ++ C) (8 * A.length + j) = getBit C j := by
  rw [getBit, getBit, List.getD_append_right _ _ _ _ (by omega)]
  congr 2 <;> omega

/-- Packing the first bits of a buffer gives its first bytes. -/
theorem packBits_getBit_append (A C : List Byte) : packBits A.length (getBit (A ++ C)) = A := by
  refine buffer_eq_of_getBit (packBits_length ..) fun j hj => ?_
  rw [packBits_length] at hj
  rw [getBit_packBits _ _ _ hj, getBit_append_left hj]

/-- With `ConvRoundTrip`, the coded form of 22 bytes and a zero tail byte decodes to the 22 bytes (R130). -/
theorem convDecode_convEncode_zeroTail {p : Params} (hp : ConvRoundTrip p) {A : List Byte} (hA : A.length = 22) :
    convDecode p (pairsOf (convEncode p (A ++ [0]) 180)) 176 = A := by
  have htail : ∀ k < 4, getBit (A ++ [0]) (176 + k) = false := by
    intro k hk
    rw [show 176 + k = 8 * A.length + k by omega, getBit_append_right, getBit, show k / 8 = 0 by omega]
    exact BitVec.getLsbD_zero
  calc convDecode p (pairsOf (convEncode p (A ++ [0]) 180)) 176
      = packBits A.length (getBit (A ++ [0])) := by
        rw [hA]
        exact hp 176 (.inl rfl) (A ++ [0]) (by simp [hA]) htail
    _ = A := packBits_getBit_append A [0]

/-- The channel built from a plaintext decodes to the whitened plaintext with its CRC (R176). -/
theorem decodedBlock20_codedBlock20 {p : Params} (hp : ConvRoundTrip p) (P : List Byte) :
    decodedBlock20 p (codedBlock20 p P) = crcAdd p (whiten p P 20 ++ [0, 0]) 20 := by
  rw [decodedBlock20, codedBlock20, deinterleave_interleave _ (convEncode_length ..)]
  exact convDecode_convEncode_zeroTail hp (by simp)

/-- Whitening `n` bytes reads the first `n` bytes alone (R124). -/
theorem whiten_take (p : Params) (B : List Byte) (n : Nat) : whiten p (B.take n) n = whiten p B n := by
  refine List.map_congr_left fun j hj => ?_
  rw [List.getD_eq_getElem?_getD, List.getElem?_take_of_lt (List.mem_range.1 hj), ← List.getD_eq_getElem?_getD]

/-- Dewhitening the information bytes of a block of whitened plaintext and CRC gives the plaintext back (R125, R133). -/
theorem whiten_crcAdd_whiten (p : Params) {P : List Byte} {n : Nat} (hP : P.length = n) (C : List Byte) :
    whiten p (crcAdd p (whiten p P n ++ C) n) n = P := by
  rw [← whiten_take, crcAdd_take, List.take_left' (whiten_length ..), whiteningIsSelfInverse p P n hP.ge,
    List.take_of_length_le hP.le]

/-- The channel built from a 20-byte plaintext passes its CRC check and is traced with that plaintext (R137, R176). -/
theorem blockTrace_codedBlock20 {p : Params} (hp : ConvRoundTrip p) {P : List Byte} (hP : P.length = 20)
    (tag : TraceTag) : blockTrace p tag (codedBlock20 p P) = if p.traceEn then [⟨tag, P⟩] else [] := by
  have hcrc : crcCheck p (crcAdd p (whiten p P 20 ++ [0, 0]) 20) 20 = true := crcCheck_crcAdd p (by simp)
  rw [blockTrace, decodedBlock20_codedBlock20 hp, hcrc, whiten_crcAdd_whiten p hP, Bool.true_and]

/-- Two built channels are traced in order, or not at all (R136). -/
theorem blockTrace_codedBlock20_append {p : Params} (hp : ConvRoundTrip p) {P Q : List Byte} (hP : P.length = 20)
    (hQ : Q.length = 20) (tag1 tag2 : TraceTag) :
    blockTrace p tag1 (codedBlock20 p P) ++ blockTrace p tag2 (codedBlock20 p Q) =
      if p.traceEn then [⟨tag1, P⟩, ⟨tag2, Q⟩] else [] := by
  rw [blockTrace_codedBlock20 hp hP, blockTrace_codedBlock20 hp hQ]
  cases p.traceEn <;> rfl

/-- Settles O47: the three commands complete with their events, and the events of built channels are the plaintexts. -/
theorem builtBlocksDecodeToTheirPlaintext : Obligations.BuiltBlocksDecodeToTheirPlaintext := by
  intro p hp fi fn ft dt P Q s hP hQ hlen h1
  have hfirst (tag : TraceTag) := blockTrace_codedBlock20 hp hP tag
  have hboth (tag1 tag2 : TraceTag) := blockTrace_codedBlock20_append hp hP hQ tag1 tag2
  refine ⟨fun h2 => ⟨?_, ?_⟩, ?_⟩
  · exact execWith_observedDecode rfl nofun hlen (by rw [commandEvents, h1, h2, hboth])
  · exact execWith_observedDecode rfl nofun hlen (by rw [commandEvents, h1, h2, hboth])
  · exact execWith_observedDecode rfl nofun hlen (by rw [commandEvents, h1, hfirst])

end Sys2Proof.Machine
end

section
/-! V/D Mode 1 and Voice Full-Rate decode (R155, R190 to R192): each completes with the events of its one channel, or
with none. -/

namespace Sys2Proof.Machine

/-- Settles O25: both commands are `DECODE` forms without store and repair; V/D Mode 1 has the events of its one channel,
Voice Full-Rate has none. -/
theorem voiceDataOneAndVoiceFullRateComplete : Obligations.VoiceDataOneAndVoiceFullRateComplete := by
  intro fi fn ft s hlen
  have hvd1 : commandEvents params (.decodeVD1 fi fn ft) s =
      blockTrace params .vd1 (channel 9 0 (window params s)) := rfl
  have hvfr : commandEvents params (.decodeVFR fi fn ft) s = [] := rfl
  simp only [exec_eq_execWith]
  exact ⟨execWith_observedDecode rfl nofun hlen hvd1, execWith_observedDecode rfl nofun hlen hvfr⟩

end Sys2Proof.Machine
end

section
/-! V/D Mode 2 (R200 to R222): the sizes of the buffers, which block is re-encoded, the decision table, the mailbox
policy, and what the rewritten groups decode to. -/

namespace Sys2Proof.Machine

/-! ## The sizes of the buffers (R174, R221) -/

/-- What `Extract2x45` answers are the two half-channels' runs (R114). -/
theorem extract2x45_eq_ok {s : State} {d1 d2 : List Byte} (h : extract2x45 s = .ok (d1, d2)) :
    readRuns .payload 9 (groupStarts 0) s = .ok d1 ∧ readRuns .payload 9 (groupStarts 9) s = .ok d2 := by
  unfold extract2x45 at h
  cases h1 : readRuns .payload 9 (groupStarts 0) s with
  | error f => rw [h1] at h; cases h
  | ok b1 =>
    cases h2 : readRuns .payload 9 (groupStarts 9) s with
    | error f => rw [h1, h2] at h; cases h
    | ok b2 => rw [h1, h2] at h; cases h; exact ⟨rfl, rfl⟩

/-- Settles O21: each buffer has the length its operation gives it, an extracted channel five runs. -/
theorem blockSizesAreFixed : Obligations.BlockSizesAreFixed := by
  refine ⟨fun p d W => ⟨reencode_length p W, convDecode_length .., decodedBlock10_length p d, ?_,
    deinterleave_length .., decodedBlock20_length p d, crcCheck_eq_true, whiten_length ..⟩,
    fun s => ⟨fun d h => readRuns_length h, fun d h => readRuns_length h, fun d1 d2 h => ?_⟩⟩
  · rw [List.length_take, decodedBlock10_length]
    rfl
  · obtain ⟨h1, h2⟩ := extract2x45_eq_ok h
    exact ⟨readRuns_length h1, readRuns_length h2⟩

/-! ## The substitute and the block that is re-encoded (R207 to R209) -/

theorem substitute_eq_some_iff {fn : BitVec 3} {s : State} {c : Callsign} :
    substitute fn s = some c ↔ (fn = 2 ∧ s.downlink = some c) ∨ (fn = 3 ∧ s.uplink = some c) := by
  rw [substitute_eq]
  split_ifs with h2 h3
  · subst h2; simp
  · subst h3; simp
  · refine ⟨nofun, ?_⟩
    rintro (⟨h, -⟩ | ⟨h, -⟩)
    · exact absurd h h2
    · exact absurd h h3

theorem substitute_eq_none_iff {fn : BitVec 3} {s : State} :
    substitute fn s = none ↔ (fn = 2 → s.downlink = none) ∧ (fn = 3 → s.uplink = none) := by
  rw [substitute_eq]
  split_ifs with h2 h3
  · subst h2; simp
  · subst h3; simp
  · exact ⟨fun _ => ⟨(absurd · h2), (absurd · h3)⟩, fun _ => rfl⟩

section
variable {p : Params} {fn : BitVec 3} {s : State} (fi : BitVec 2) (ft : BitVec 3)

/-- A substituted callsign is re-encoded, whatever the CRC outcome (R207, R208). -/
theorem regeneratedBlock_of_substitute {c : Callsign} (hsub : substitute fn s = some c) :
    regeneratedBlock p (.decodeVD2 fi fn ft) s = some (whiten p c.bytes 10) := by
  simp only [regeneratedBlock, hsub, validBlock]

/-- Without substitution the decoded information bytes are re-encoded when the CRC check succeeded (R203, R209). -/
theorem regeneratedBlock_of_vd2Crc_eq_true (hsub : substitute fn s = none) (hcrc : vd2Crc p s = true) :
    regeneratedBlock p (.decodeVD2 fi fn ft) s = some (vd2Info p s) := by
  simp only [regeneratedBlock, hsub, hcrc, validBlock, if_true]

/-- Without substitution nothing is re-encoded when the CRC check failed (R209). -/
theorem regeneratedBlock_of_vd2Crc_eq_false (hsub : substitute fn s = none) (hcrc : vd2Crc p s = false) :
    regeneratedBlock p (.decodeVD2 fi fn ft) s = none := by
  simp only [regeneratedBlock, hsub, hcrc, validBlock, Bool.false_eq_true, if_false]

end

/-- Between the groups `PAYLOAD` is the payload region of the frame after every `DECODE` (R60, R119). -/
theorem decoded_payload_byte_of_not_inGroup {p : Params} {i : Instr} {s : State} (hl : frameLongEnough p s = true)
    {k : Nat} (hk : k < 90) (hgroup : ¬ inGroup k) :
    (decoded p i s).byte .payload k = s.byte .frame (p.payloadOff + k) := by
  cases hb : regeneratedBlock p i s with
  | none => exact decoded_loaded hl hb k hk
  | some W => exact (decoded_regenerated hl hb).1 k hk hgroup

section
variable {p : Params} {fi : BitVec 2} {fn ft : BitVec 3} {s t : State}

/-- A V/D Mode 2 that re-encodes a block returns 1 and leaves that block in the five groups (R209, R212). -/
theorem execWith_decodeVD2_of_block (h : execWith p (.decodeVD2 fi fn ft) s = .next t) {W : List Byte}
    (hb : regeneratedBlock p (.decodeVD2 fi fn ft) s = some W) :
    t.result = true ∧ groupsHold t (reencode p W) := by
  obtain ⟨hl, rfl⟩ := execWith_decode_inv rfl h
  refine ⟨?_, (decoded_regenerated hl hb).2⟩
  rw [execWith_result h, ← regeneratedBlock_decodeVD2_isSome, hb]
  rfl

/-- A V/D Mode 2 that re-encodes nothing returns 0 and leaves the copied-in payload (R209). -/
theorem execWith_decodeVD2_of_no_block (h : execWith p (.decodeVD2 fi fn ft) s = .next t)
    (hb : regeneratedBlock p (.decodeVD2 fi fn ft) s = none) : t.result = false ∧ loaded p s t := by
  obtain ⟨hl, rfl⟩ := execWith_decode_inv rfl h
  refine ⟨?_, decoded_loaded hl hb⟩
  rw [execWith_result h, ← regeneratedBlock_decodeVD2_isSome, hb]
  rfl

/-! ## The decision table (R217) -/

/-- A V/D Mode 2 that completes does what the decision table says, under every parameter set. -/
theorem execWith_decodeVD2_vd2Table (h : execWith p (.decodeVD2 fi fn ft) s = .next t) : vd2Table p fn s t := by
  have hdest := execWith_slot h .dest
  have hsource := execWith_slot h .source
  have htrace := execWith_trace h
  have hrepaired (c : Callsign) (hc : (fn = 2 ∧ s.downlink = some c) ∨ (fn = 3 ∧ s.uplink = some c)) :=
    execWith_decodeVD2_of_block h (regeneratedBlock_of_substitute fi ft (substitute_eq_some_iff.2 hc))
  refine ⟨?_, htrace, hdest, hsource, ?_, hrepaired, fun h2 h3 => ?_⟩
  · obtain ⟨-, rfl⟩ := execWith_decode_inv rfl h
    rfl
  · obtain ⟨hl, rfl⟩ := execWith_decode_inv rfl h
    exact fun k => decoded_payload_byte_of_not_inGroup hl
  · have hsub := substitute_eq_none_iff.2 ⟨h2, h3⟩
    refine ⟨fun hcrc => ?_, fun hcrc => ?_⟩
    · exact execWith_decodeVD2_of_block h (regeneratedBlock_of_vd2Crc_eq_true fi ft hsub hcrc)
    · exact execWith_decodeVD2_of_no_block h (regeneratedBlock_of_vd2Crc_eq_false fi ft hsub hcrc)

end

/-- Settles O26: a frame that is long enough completes, and what completes follows the table. -/
theorem voiceDataTwoDecisionTable : Obligations.VoiceDataTwoDecisionTable := by
  intro fi fn ft s
  have htable (p : Params) (hlen : p.payloadOff + 90 ≤ s.frameLen) :
      ∃ t, execWith p (.decodeVD2 fi fn ft) s = .next t ∧ vd2Table p fn s t := by
    have hrun := execWith_decode_eq_decoded (i := .decodeVD2 fi fn ft) rfl (frameLongEnough_iff.2 hlen)
    exact ⟨_, hrun, execWith_decodeVD2_vd2Table hrun⟩
  refine ⟨?_, htable⟩
  rw [exec_eq_execWith]
  exact htable params

/-! ## The mailbox policy (R205, R206) -/

/-- An empty mailbox takes what is stored; an occupied one takes it or keeps its own by the policy (R205). -/
theorem mailboxStore_policy {pol : MailboxPolicy} {old new : Option Callsign} {c : Callsign}
    (h : new = mailboxStore pol old c) :
    (old = none → new = some c) ∧ (∀ d, old = some d → pol = .overwrite → new = some c) ∧
      (∀ d, old = some d → pol = .keepFirst → new = some d) := by
  subst h
  refine ⟨?_, ?_, ?_⟩
  · rintro rfl; rfl
  · rintro d rfl rfl; rfl
  · rintro d rfl rfl; rfl

/-- Settles O33: the decision table's row of `fn` 0 and of `fn` 1 is a store by the policy. -/
theorem mailboxStoreFollowsThePolicy : Obligations.MailboxStoreFollowsThePolicy := by
  intro p fi ft s t hcrc
  refine ⟨callsignOf_bytes (whiten_length ..), fun h => ?_, fun h => ?_⟩
  · obtain ⟨-, -, hdest, -⟩ := execWith_decodeVD2_vd2Table h
    exact mailboxStore_policy (hdest.trans (if_pos ⟨rfl, hcrc⟩))
  · obtain ⟨-, -, -, hsource, -⟩ := execWith_decodeVD2_vd2Table h
    exact mailboxStore_policy (hsource.trans (if_pos ⟨rfl, hcrc⟩))

/-! ## The regenerated groups (R209, R216) -/

/-- Settles O46: both commands leave the re-encoding of the same information bytes. -/
theorem regenerationDependsOnTheDecodedBlockOnly : Obligations.RegenerationDependsOnTheDecodedBlockOnly := by
  intro p fi fn ft s s' t t' h h' hcrc hsub hsub' hout k hk
  have hcrc' : vd2Crc p s' = true := by rwa [vd2Crc, hout]
  have hinfo : vd2Info p s' = vd2Info p s := by rw [vd2Info, hout, vd2Info]
  obtain ⟨-, hgroups⟩ := execWith_decodeVD2_of_block h (regeneratedBlock_of_vd2Crc_eq_true fi ft hsub hcrc)
  obtain ⟨-, hgroups'⟩ := execWith_decodeVD2_of_block h' (regeneratedBlock_of_vd2Crc_eq_true fi ft hsub' hcrc')
  rw [hgroups' k hk, hgroups k hk, hinfo]

/-! ## The buffer that is encoded (R210, R214) -/

/-- All that `CrcAdd` leaves: the information bytes, their CRC, and what stood behind it (R133). -/
theorem crcAdd_eq_append (p : Params) {B : List Byte} {n : Nat} (h : n + 2 ≤ B.length) :
    crcAdd p B n = B.take n ++ (p.crc (B.take n)).1 :: (p.crc (B.take n)).2 :: B.drop (n + 2) := by
  have h0 : n < B.length := by omega
  have h1 : n + 1 < B.length := by omega
  have hsecond (x : Byte) : (x :: B.drop (n + 1)).set 1 (p.crc (B.take n)).2 =
      x :: (p.crc (B.take n)).2 :: B.drop (n + 2) := by
    rw [List.drop_eq_getElem_cons h1]
    rfl
  rw [crcAdd, List.set_eq_take_append_cons_drop (l := B) (i := n), if_pos h0,
    List.set_append, if_neg (by simp), List.length_take_of_le h0.le, Nat.add_sub_cancel_left, hsecond]

/-- The buffer to encode is a 10-byte block, its CRC and a zero tail byte (R210). -/
theorem encoderBuffer_eq (p : Params) {W : List Byte} (hW : W.length = 10) :
    encoderBuffer p W = W ++ [(p.crc W).1, (p.crc W).2] ++ [0] := by
  rw [encoderBuffer, crcAdd_eq_append p (by simp [hW]), List.take_left' hW, List.drop_append]
  simp [hW]

theorem encoderBuffer_eq_crcAdd (p : Params) {W : List Byte} (hW : W.length = 10) :
    encoderBuffer p W = crcAdd p (W ++ [0, 0, 0]) 10 := by
  rw [encoderBuffer_eq p hW, crcAdd_eq_append p (by simp [hW]), List.take_left' hW, List.drop_append]
  simp [hW]

/-- The information bytes of a block that passed the CRC check are encoded as the block that was decoded (R214). -/
theorem encoderBuffer_take_decodedBlock10 {p : Params} {d : List Byte}
    (hcrc : crcCheck p (decodedBlock10 p d) 10 = true) :
    encoderBuffer p ((decodedBlock10 p d).take 10) = decodedBlock10 p d := by
  have htail : (decodedBlock10 p d).drop (10 + 2) = [0] := List.drop_left' (by simp)
  calc encoderBuffer p ((decodedBlock10 p d).take 10)
      = (decodedBlock10 p d).take 10 ++ [(p.crc ((decodedBlock10 p d).take 10)).1,
          (p.crc ((decodedBlock10 p d).take 10)).2] ++ [0] := encoderBuffer_eq p (by simp)
    _ = crcAdd p (decodedBlock10 p d) 10 := by
        rw [crcAdd_eq_append p (by simp), htail, List.append_assoc]
        rfl
    _ = decodedBlock10 p d := crcAdd_of_crcCheck hcrc

/-- A byte of a group of the payload region is its byte of the extracted channel (R116). -/
theorem channel_getElem?_of_inGroup (p : Params) (s : State) {k : Nat} (hk : inGroup k) :
    (channel 5 0 (window p s))[5 * (k / 18) + k % 18]? = (window p s)[k]? := by
  obtain ⟨hlt, hgroup⟩ := hk
  have hpos : 18 * ((5 * (k / 18) + k % 18) / 5) + 0 + (5 * (k / 18) + k % 18) % 5 = k := by omega
  have hlen : k < (window p s).length := by rwa [window_length]
  rw [channel, List.getElem?_map, List.getElem?_range (by omega), Option.map_some, hpos,
    List.getD_eq_getElem _ _ hlen, List.getElem?_eq_getElem hlen]

/-- Settles O44: what is re-encoded is the decoded block, so the write-back stores the extracted channel. -/
theorem uncorruptedFrameRoundTrips : Obligations.UncorruptedFrameRoundTrips := by
  intro p fi fn ft s t h hcrc hsub hcoded
  have hchannel : reencode p (vd2Info p s) = channel 5 0 (window p s) := by
    have hbuffer : encoderBuffer p (vd2Info p s) = vd2Out p s := encoderBuffer_take_decodedBlock10 hcrc
    rw [reencode, hbuffer, ← hcoded, interleave_deinterleave p.ilv5 (channel_length 5 0 _)]
  obtain ⟨-, hgroups⟩ := execWith_decodeVD2_of_block h (regeneratedBlock_of_vd2Crc_eq_true fi ft hsub hcrc)
  obtain ⟨hl, rfl⟩ := execWith_decode_inv rfl h
  intro k hk
  by_cases hgroup : inGroup k
  · rw [hgroups k hgroup, hchannel, channel_getElem?_of_inGroup p s hgroup, window_getElem? hl hk]
  · exact decoded_payload_byte_of_not_inGroup hl hk hgroup

/-! ## What the rewritten groups decode to (R130, R215) -/

/-- With `ConvRoundTrip`, the coded form of 12 bytes and a zero tail byte decodes to the 12 bytes (R130). -/
theorem convDecode_convEncode_zeroTail_of_length_12 {p : Params} (hp : ConvRoundTrip p) {A : List Byte}
    (hA : A.length = 12) : convDecode p (pairsOf (convEncode p (A ++ [0]) 100)) 96 = A := by
  have htail : ∀ k < 4, getBit (A ++ [0]) (96 + k) = false := by
    intro k hk
    rw [show 96 + k = 8 * A.length + k by omega, getBit_append_right, getBit, show k / 8 = 0 by omega]
    exact BitVec.getLsbD_zero
  rw [hp 96 (.inr rfl) (A ++ [0]) (by simp [hA]) htail, show 96 / 8 = A.length by omega, packBits_getBit_append]

/-- The re-encoded channel decodes to the buffer that was encoded (R120, R130). -/
theorem decodedBlock10_reencode {p : Params} (hp : ConvRoundTrip p) {W : List Byte} (hW : W.length = 10) :
    decodedBlock10 p (reencode p W) = encoderBuffer p W := by
  rw [decodedBlock10, reencode, deinterleave_interleave _ (convEncode_length ..), encoderBuffer_eq p hW,
    convDecode_convEncode_zeroTail_of_length_12 hp (by simp [hW])]

/-- Reading runs depends on the bytes of that space alone. -/
theorem readRuns_congr {sp : Space} {s t : State} (h : ∀ a, t.byte sp a = s.byte sp a) (hsize : t.size sp = s.size sp)
    (w : Nat) (starts : List Nat) : readRuns sp w starts t = readRuns sp w starts s := by
  induction starts with
  | nil => rfl
  | cons a as ih => rw [readRuns, readRuns, memRead_congr h hsize, ih]

/-- When the five groups hold a channel, it is what `Extract25` answers (R116, R119). -/
theorem extract25_of_groupsHold {t : State} {d : List Byte} (hd : d.length = 25) (h : groupsHold t d) :
    extract25 t = .ok d := by
  have hbytes (k : Nat) : t.byte .payload k = (insert25 d t).byte .payload k := by
    rw [insert25_payload_byte d t hd]
    split_ifs with hk
    · exact h k hk
    · rfl
  rw [extract25, readRuns_congr hbytes rfl]
  exact extract25_insert25 hd t

/-- Settles O45: the groups hold the re-encoded whitened callsign, which decodes to itself with its CRC. -/
theorem repairedFrameDecodesToTheCallsign : Obligations.RepairedFrameDecodesToTheCallsign := by
  intro p hp fi fn ft s t c h hsub
  obtain ⟨hresult, hgroups⟩ := execWith_decodeVD2_of_block h (regeneratedBlock_of_substitute fi ft hsub)
  have hW : (whiten p c.bytes 10).length = 10 := whiten_length ..
  refine ⟨hresult, _, extract25_of_groupsHold (reencode_length ..) hgroups, ?_⟩
  rw [decodedBlock10_reencode hp hW, encoderBuffer_eq_crcAdd p hW, whiten_take]
  exact ⟨crcCheck_crcAdd p (by simp), whiten_crcAdd_whiten p c.size_eq _⟩

end Sys2Proof.Machine
end

section
/-! The callsign cache (R240 to R245): what a `SET` stores, what a `GET` takes, and what fills an empty mailbox. -/

namespace Sys2Proof.Machine

/-! ## `SET_UPLINK` and `SET_DOWNLINK` (R240, R241) -/

/-- A word of format `L` is its opcode's word plus the length operand (R87, R94). -/
theorem wordL_eq_add (op len : BitVec 4) :
    (op ++ 0#8 ++ len : Word) = BitVec.ofNat 16 (op.toNat * 0x1000) + len.zeroExtend 16 := by
  apply BitVec.eq_of_toNat_eq
  rw [wordL_toNat, BitVec.toNat_add, BitVec.toNat_ofNat, BitVec.toNat_setWidth]
  omega

/-- Every byte of `CSIN` has a value (R50; log 12). -/
theorem exists_csin_byte (s : State) {j : Nat} (hj : j < 10) : ∃ b, s.byte .csin j = some b :=
  Option.isSome_iff_exists.1 (byte_isSome_of_host (sp := .csin) nofun hj)

/-- The padded string, byte by byte: the first `min(len, 10)` bytes of `CSIN`, then `PAD` (R242). -/
theorem pad10_csinBytes_getElem? (p : Params) (s : State) (len : BitVec 4) {j : Nat} (hj : j < 10) :
    (pad10 p (csinBytes s) len).bytes[j]? = if j < min len.toNat 10 then s.byte .csin j else some p.pad := by
  obtain ⟨b, hb⟩ := exists_csin_byte s hj
  have hread : (csinBytes s).getD j p.pad = b := by simp [csinBytes, hj, hb]
  rw [pad10, ofFn_bytes, List.getElem?_map, List.getElem?_range hj, Option.map_some, stringLen, hread, hb,
    apply_ite some]

/-- Settles O28: both commands write `pad10` of the string in `CSIN` to their slot. -/
theorem setCommandsStoreThePaddedString : Obligations.SetCommandsStoreThePaddedString := fun len s =>
  ⟨wordL_eq_add 3 len, wordL_eq_add 4 len, pad10 params (csinBytes s) len,
    fun _ hj => pad10_csinBytes_getElem? params s len hj,
    setCallsign_next params .uplink len s, setCallsign_next params .downlink len s⟩

/-! ## `GET_SOURCE` and `GET_DEST` (R243, R244) -/

/-- A `GET` of a full mailbox empties it, sets `RESULT` and writes `CSOUT`, and nothing else (R243, R244). -/
theorem takeMailbox_some_eq {sl : Slot} {s : State} {c : Callsign} (hc : s.slot sl = some c) :
    takeMailbox sl s = setResult true ({ s with csout := (takeMailbox sl s).csout }.setSlot sl none) := by
  have h := takeMailbox_eq sl s
  rwa [hc] at h

/-- Settles O29: each command is `takeMailbox` of its mailbox, full or empty. -/
theorem getCommandsTakeTheMailbox : Obligations.GetCommandsTakeTheMailbox := by
  refine ⟨rfl, rfl, fun s => ⟨fun h => ?_, fun h => ?_, fun c h => ?_, fun c h => ?_⟩⟩
  · exact congrArg _ (takeMailbox_none (sl := .source) h)
  · exact congrArg _ (takeMailbox_none (sl := .dest) h)
  · exact ⟨_, rfl, takeMailbox_some_eq (sl := .source) h, (takeMailbox_output (sl := .source) h).2⟩
  · exact ⟨_, rfl, takeMailbox_some_eq (sl := .dest) h, (takeMailbox_output (sl := .dest) h).2⟩

/-! ## A mailbox that was taken (R245) -/

/-- A `GET` leaves its mailbox empty, whatever it was (R245). -/
theorem takeMailbox_slot_self (sl : Slot) (s : State) : (takeMailbox sl s).slot sl = none := by
  rw [takeMailbox_slot, if_pos rfl]

/-- A second `GET` finds the mailbox empty (R245). -/
theorem takeMailbox_takeMailbox (sl : Slot) (s : State) :
    takeMailbox sl (takeMailbox sl s) = setResult false (takeMailbox sl s) :=
  takeMailbox_none (takeMailbox_slot_self sl s)

/-- A command that fills an empty mailbox is a V/D Mode 2 frame that is stored there, its CRC check passed (R23, R245):
the only other command that writes a mailbox is its `GET`, which leaves it empty. -/
theorem mailbox_filled_by_decodeVD2 {p : Params} {i : Instr} {s t : State} (h : execWith p i s = .next t) {sl : Slot}
    (hsl : sl = .source ∨ sl = .dest) (hempty : s.slot sl = none) (hfull : t.slot sl ≠ none) :
    ∃ fi fn ft, i = .decodeVD2 fi fn ft ∧ storeSlot fn = some sl ∧ vd2Crc p s = true := by
  have hwritten : writtenSlot i = some sl := writtenSlot_of_slot_ne h (hempty ▸ hfull)
  have hafter : t.slot sl = slotAfter p i s sl := execWith_slot h sl
  cases i with
  | decodeVD2 fi fn ft =>
    refine ⟨fi, fn, ft, rfl, hwritten, ?_⟩
    by_contra hcrc
    rw [slotAfter_decodeVD2_of_vd2Crc_eq_false (Bool.eq_false_iff.2 hcrc), hempty] at hafter
    exact hfull hafter
  | getSource | getDest =>
    cases hwritten
    exact absurd hafter hfull
  | setUplink | setDownlink =>
    cases hwritten
    simp at hsl
  | decodeHT | decodeVD1 | decodeDFR | decodeVFR | encode => cases hwritten

/-- Only `fn` 1 stores in `SOURCE` (R206). -/
theorem fn_eq_of_storeSlot_source {fn : BitVec 3} (h : storeSlot fn = some .source) : fn = 1 := by
  obtain ⟨-, hsl⟩ | ⟨hfn, -⟩ := storeSlot_eq_some h
  · cases hsl
  · exact hfn

/-- Only `fn` 0 stores in `DEST` (R205). -/
theorem fn_eq_of_storeSlot_dest {fn : BitVec 3} (h : storeSlot fn = some .dest) : fn = 0 := by
  obtain ⟨hfn, -⟩ | ⟨-, hsl⟩ := storeSlot_eq_some h
  · exact hfn
  · cases hsl

/-- Settles O34: a `GET` empties its mailbox, and a V/D Mode 2 frame stores only in the mailbox of its `fn`. -/
theorem secondGetFindsNothing : Obligations.SecondGetFindsNothing := by
  refine ⟨fun s t h => ?_, fun s t h => ?_, fun p i s t h => ⟨fun hempty hfull => ?_, fun hempty hfull => ?_⟩,
    ?_, ?_⟩
  · cases h
    exact ⟨takeMailbox_slot_self .source s, congrArg _ (takeMailbox_takeMailbox .source s)⟩
  · cases h
    exact ⟨takeMailbox_slot_self .dest s, congrArg _ (takeMailbox_takeMailbox .dest s)⟩
  · obtain ⟨fi, fn, ft, rfl, hstore, hcrc⟩ := mailbox_filled_by_decodeVD2 h (sl := .source) (.inl rfl) hempty hfull
    exact ⟨⟨fi, ft, by rw [fn_eq_of_storeSlot_source hstore]⟩, hcrc⟩
  · obtain ⟨fi, fn, ft, rfl, hstore, hcrc⟩ := mailbox_filled_by_decodeVD2 h (sl := .dest) (.inr rfl) hempty hfull
    exact ⟨⟨fi, ft, by rw [fn_eq_of_storeSlot_dest hstore]⟩, hcrc⟩
  · exact congrArg _ (takeMailbox_none (resetWith_slot params .source))
  · exact congrArg _ (takeMailbox_none (resetWith_slot params .dest))

end Sys2Proof.Machine
end

section
/-! What stops a command (R260 to R265): no fault from a state with the invariant, and a refusal exactly where the contract
is broken. And the step of an idle engine (R275). -/

namespace Sys2Proof.Machine

/-! ## The outcomes of each command -/

theorem frameLongEnough_eq_false_iff {p : Params} {s : State} :
    frameLongEnough p s = false ↔ s.frameLen < p.payloadOff + 90 := by
  rw [← Bool.not_eq_true, frameLongEnough_iff, Nat.not_le]

/-- The `SET` and `GET` commands complete in every state (R240 to R244). -/
theorem exists_execWith_eq_next {p : Params} {i : Instr} (hd : i.isDecode = false) (he : i ≠ .encode) (s : State) :
    ∃ t, execWith p i s = .next t := by
  cases i with
  | setUplink len | setDownlink len => exact ⟨_, setCallsign_next ..⟩
  | getSource | getDest => exact ⟨_, rfl⟩
  | encode => exact absurd rfl he
  | decodeHT | decodeVD1 | decodeDFR | decodeVD2 | decodeVFR => cases hd

/-- After a `DECODE`, an `ENCODE` to a frame that is too short is refused (R262; log 15). -/
theorem encodeCommand_short {p : Params} {s : State} (hv : s.payloadValid = true) (hl : frameLongEnough p s = false) :
    encodeCommand p s = .refused .frameTooShort := by
  simp only [encodeCommand, hv, hl, if_true, Bool.false_eq_true, if_false]

/-! ## No fault (R260) -/

/-- An `ENCODE` meets a `PAYLOAD` byte without a value in no state with the invariant (R61). -/
theorem encodeCommand_ne_fault {p : Params} {s : State} (hs : s.Inv) (f : Fault) : encodeCommand p s ≠ .fault f := by
  cases hv : s.payloadValid with
  | false => rw [encodeCommand_of_payloadValid_eq_false hv]; nofun
  | true =>
    cases hl : frameLongEnough p s with
    | false => rw [encodeCommand_short hv hl]; nofun
    | true => rw [encodeCommand_next hv hl (hs.payloadFilled hv)]; nofun

/-- A `DECODE` faults in no state: it reads the bytes of a frame that is long enough, and then those it has copied in
(R61, R151). -/
theorem execWith_decode_ne_fault {p : Params} {i : Instr} (hd : i.isDecode = true) (s : State) (f : Fault) :
    execWith p i s ≠ .fault f := by
  cases hl : frameLongEnough p s with
  | false => rw [execWith_decode_short hd hl]; nofun
  | true => rw [execWith_decode hd hl]; nofun

/-- Settles O4: only an `ENCODE` depends on the invariant, which fills `PAYLOAD` once anything was decoded. -/
theorem noCommandFaults : Obligations.NoCommandFaults := by
  intro p i s hs f
  cases hd : i.isDecode with
  | true => exact execWith_decode_ne_fault hd s f
  | false =>
    by_cases he : i = .encode
    · subst he
      exact encodeCommand_ne_fault hs f
    · obtain ⟨t, ht⟩ := exists_execWith_eq_next (p := p) hd he s
      rw [ht]; nofun

/-! ## The refusals (R262, R265) -/

theorem encodeCommand_eq_refused_iff {p : Params} {s : State} {r : Refusal} :
    encodeCommand p s = .refused r ↔
      (r = .encodeBeforeDecode ∧ s.payloadValid = false) ∨
      (r = .frameTooShort ∧ frameLongEnough p s = false ∧ s.payloadValid = true) := by
  cases hv : s.payloadValid with
  | false => simp [encodeCommand_of_payloadValid_eq_false hv, @eq_comm Refusal r]
  | true =>
    cases hl : frameLongEnough p s with
    | false => simp [encodeCommand_short hv hl, @eq_comm Refusal r]
    | true =>
      -- past both tests the only way to stop is a fault of the read
      simp only [encodeCommand, hv, hl, if_true]
      cases memRead .payload 0 90 s <;> simp

theorem execWith_decode_eq_refused_iff {p : Params} {i : Instr} (hd : i.isDecode = true) {s : State} {r : Refusal} :
    execWith p i s = .refused r ↔ r = .frameTooShort ∧ frameLongEnough p s = false := by
  cases hl : frameLongEnough p s with
  | false => simp [execWith_decode_short hd hl, @eq_comm Refusal r]
  | true => simp [execWith_decode hd hl]

/-- A command of any engine is refused exactly where the contract is broken (R262). -/
theorem execWith_eq_refused_iff {p : Params} {i : Instr} {s : State} {r : Refusal} :
    execWith p i s = .refused r ↔
      (r = .encodeBeforeDecode ∧ i = .encode ∧ s.payloadValid = false) ∨
      (r = .frameTooShort ∧ s.frameLen < p.payloadOff + 90 ∧
        (i.isDecode = true ∨ (i = .encode ∧ s.payloadValid = true))) := by
  rw [← frameLongEnough_eq_false_iff]
  cases hd : i.isDecode with
  | true =>
    have he : i ≠ .encode := by rintro rfl; cases hd
    simp [execWith_decode_eq_refused_iff hd, he]
  | false =>
    by_cases he : i = .encode
    · subst he
      have hexec : execWith p .encode s = encodeCommand p s := rfl
      simp [hexec, encodeCommand_eq_refused_iff]
    · obtain ⟨t, ht⟩ := exists_execWith_eq_next (p := p) hd he s
      simp [ht, he]

/-- Settles O5: the machine is the engine at its parameters, and every engine refuses exactly so. -/
theorem refusalsAreExactlyTheContract : Obligations.RefusalsAreExactlyTheContract := by
  intro i s r
  rw [exec_eq_execWith, execWith_eq_refused_iff]

/-! ## The idle engine (R275) -/

theorem performNext_idle {dec : Word → Except DecodeError Instr}
    {run : Instr → State → Host.Outcome State Fault Refusal} {s : State} (h : s.pending = []) :
    performNext dec run s = .next s := by
  simp only [performNext, fetch, h]

/-- Settles O8: without a host event the loop over the host events answers the state it is given. -/
theorem idleEngineKeepsItsState : Obligations.IdleEngineKeepsItsState := fun _ h => performNext_idle h

end Sys2Proof.Machine
end
